-- ==== Sys2Proof/Word.lean ====
section
/-!
DEFINITION. The word types. Every datum of this hardware is one byte (spec rule R35); the program counter, the load
address lines and the recorded cause are nine bits wide (rules R14, R21, R48).
-/
namespace Sys2Proof

/-- A memory cell, an opcode, an operand, an immediate or a register: 8 bits (`CELL_WIDTH`, `W`, rule R4). -/
abbrev Byte := BitVec 8

/-- A program counter, a load-port address or a recorded cause: 9 bits (`PC_WIDTH`, rules R4, R14, R21, R48). -/
abbrev Word9 := BitVec 9

end Sys2Proof
end

