-- ==== Sys2Proof/Syntax.lean ====
section
/-!
DEFINITION. The instructions, one constructor per row of spec/opcode_table.json (rules R50, R51, R55).
-/
namespace Sys2Proof

/-- An operand position of an instruction as it stands in memory: `some b` where its cell exists and holds `b`, `none`
where its address lies outside memory, as happens when an instruction begins at one of the last two addresses
(rules R75, R92, R96, R109; log entry 4). -/
abbrev Operand := Option Byte

/-- The four instructions of the reference ISA (rules R1, R55). -/
inductive Instr where
  /-- HALT, format F1, opcode 0x01 (rule R110). -/
  | halt
  /-- PRINT_REGISTER, format F2, opcode 0x47; its operand byte is ignored (rules R54, R95). -/
  | printRegister (ign1 : Operand)
  /-- LOAD_IMMEDIATE, format F3, opcode 0x82: a register index byte, then an immediate byte (rules R53, R90). -/
  | loadImmediate (reg imm : Operand)
  /-- MULTIPLY, format F3, opcode 0xA2; both operand bytes are ignored (rules R54, R106). -/
  | multiply (ign1 ign2 : Operand)
  deriving DecidableEq, Repr

end Sys2Proof
end

