-- ==== Sys2Proof/WellFormed.lean ====
section
/-!
DEFINITION. Which terms of `Instr` can stand in memory. The bytes of an instruction occupy ascending addresses
(rule R52), so where operand 1 has no cell, operand 2 has none either. Nothing else is ill-formed: every operand byte
value is legal as an encoding, and a register index of 8 or more is an error condition of the running machine
(rule R91), not of the encoding.
-/
namespace Sys2Proof

/-- Operand 2 has no cell unless operand 1 has one (rule R52). -/
def operandsAscend (op1 op2 : Operand) : Bool := op1.isSome || op2.isNone

/-- The instruction can stand in memory, wholly or cut off by the end of memory. -/
def Instr.wellFormed : Instr → Bool
  | .halt => true
  | .printRegister _ => true
  | .loadImmediate reg imm => operandsAscend reg imm
  | .multiply ign1 ign2 => operandsAscend ign1 ign2

/-- Every byte of the instruction is in memory: what a program of rule R60 writes down. -/
def Instr.whole : Instr → Bool
  | .halt => true
  | .printRegister ign1 => ign1.isSome
  | .loadImmediate reg imm => reg.isSome && imm.isSome
  | .multiply ign1 ign2 => ign1.isSome && ign2.isSome

/-- The mnemonic's total encoded length in bytes (rule R50). -/
def Instr.length : Instr → Nat
  | .halt => 1
  | .printRegister _ => 2
  | .loadImmediate _ _ => 3
  | .multiply _ _ => 3

end Sys2Proof
end

