-- ==== Sys2Proof/Decode.lean ====
section
/-!
DEFINITION. The decoder: four comparators on the whole opcode byte (rules R55, R76), then the operand bytes that stand
behind it. After it the encoder, and the reading of one row of spec/opcode_table.json as bytes.
-/
namespace Sys2Proof

/-- `OP_HALT` (rules R4, R55). -/
def opHalt : Byte := 0x01

/-- `OP_PRINT_REGISTER` (rules R4, R55). -/
def opPrintRegister : Byte := 0x47

/-- `OP_LOAD_IMMEDIATE` (rules R4, R55). -/
def opLoadImmediate : Byte := 0x82

/-- `OP_MULTIPLY` (rules R4, R55). -/
def opMultiply : Byte := 0xA2

/-- The handler tags of the dispatch table (rules R55, R76). -/
inductive Handler where
  | halt
  | printRegister
  | loadImmediate
  | multiply
  deriving DecidableEq, Repr

/-- The dispatch table: one instruction descriptor per row, the opcode its unique key (rules R23, R55). -/
def dispatchTable : List (Byte × Handler) :=
  [(opHalt, .halt), (opPrintRegister, .printRegister), (opLoadImmediate, .loadImmediate), (opMultiply, .multiply)]

/-- `Lookup(opcode)`: the bound handler, or `none` for `absent` (rule R55). -/
def lookup (opcode : Byte) : Option Handler :=
  (dispatchTable.find? fun row => row.1 == opcode).map (·.2)

/-- Total encoded length in bytes of the instruction a handler implements (rules R50, R58). -/
def handlerLength : Handler → Nat
  | .halt => 1
  | .printRegister => 2
  | .loadImmediate => 3
  | .multiply => 3

/-- What the decoder makes of the bytes from the program counter on. -/
inductive Decoded where
  /-- An instruction, and the bytes behind it. -/
  | instr (i : Instr) (rest : List Byte)
  /-- There is no opcode byte: the fetch address lies outside memory (rule R74). -/
  | noOpcode
  /-- The opcode byte is bound to no handler (rules R56, R76). -/
  | unknownOpcode (opcode : Byte)
  deriving DecidableEq, Repr

/-- The instruction a handler implements, with the operand bytes that stand behind the opcode, and what follows it. -/
def decodeOperands (h : Handler) (rest : List Byte) : Decoded :=
  match h with
  | .halt => .instr .halt rest
  | .printRegister => .instr (.printRegister rest[0]?) (rest.drop 1)
  | .loadImmediate => .instr (.loadImmediate rest[0]? rest[1]?) (rest.drop 2)
  | .multiply => .instr (.multiply rest[0]? rest[1]?) (rest.drop 2)

/-- Decoding, total on any bytes (rules R55, R58, R76). -/
def decode : List Byte → Decoded
  | [] => .noOpcode
  | opcode :: rest =>
    match lookup opcode with
    | none => .unknownOpcode opcode
    | some h => decodeOperands h rest

/-- The bytes of an instruction in ascending address order (rules R51, R55); an operand without a cell has no byte. -/
def encode : Instr → List Byte
  | .halt => [opHalt]
  | .printRegister ign1 => opPrintRegister :: ign1.toList
  | .loadImmediate reg imm => opLoadImmediate :: (reg.toList ++ imm.toList)
  | .multiply ign1 ign2 => opMultiply :: (ign1.toList ++ ign2.toList)

/-- The bytes of an instruction word as spec/opcode_table.json numbers its bits: byte `k` is bits `8k+7` to `8k`, the
first at the lowest address; the bits from `nbits` up to the longest instruction (three bytes) are 0. -/
def tableBytes (nbits w : Nat) : List Byte :=
  [0, 1, 2].map fun k => BitVec.ofNat 8 (w % 2 ^ nbits / 256 ^ k)

/-- The instruction the decoder reads from a table word. -/
def decodeTableWord (nbits w : Nat) : Option Instr :=
  match decode (tableBytes nbits w) with
  | .instr i _ => some i
  | .noOpcode => none
  | .unknownOpcode _ => none

end Sys2Proof
end

