-- ==== Sys2Proof/Config.lean ====
section
/-!
DEFINITION. The parameters of rule R4. The two that may vary form the record `Config`; the sizes are fixed numbers with
names (the four opcode constants stand beside the decoder). The last definition is a free value: the spec gives it no
value (91_not_in_source.md N20), so nothing can be proved about what it is.
-/
namespace Sys2Proof

/-- `UNKNOWN_OPCODE_POLICY` (rules R4, R122). -/
inductive UnknownOpcodePolicy where
  /-- The error entry of rule R126: the engine stops with the cause latched. -/
  | halt
  /-- The error entry of rule R127: the engine reports, skips one byte and goes on. -/
  | skip
  deriving DecidableEq, Repr

/-- The parameters that are meant to be varied (rule R4). -/
structure Config where
  /-- `UNKNOWN_OPCODE_POLICY`. -/
  policy : UnknownOpcodePolicy
  /-- `HAS_STOP_REQ`: whether the cooperative stop input exists (rule R133). -/
  hasStopReq : Bool
  deriving DecidableEq, Repr

/-- The defaults of rule R4: `halt`, and no stop input. -/
def Config.standard : Config := { policy := .halt, hasStopReq := false }

/-- `MEM_SIZE` (rule R4). -/
abbrev Config.memSize : Nat := 256

/-- `NREGS` (rule R4). -/
abbrev Config.numRegs : Nat := 8

/-- FREE VALUE (log entry 9): what the loader makes of a line of binary digits that is not one string of eight digits
(91_not_in_source.md N20: not to be assumed accepted, refused or truncated). It is outside the hardware: no step reads it. -/
opaque Config.oddDigitLine : List Char → Option Byte

end Sys2Proof
end

