-- ==== Sys2Proof/Machine/State.lean ====
section
/-!
DEFINITION. The state of one instance (rule R28: exactly six items, plus the model's own `inputs`), the state after reset
(rule R27), and the reasons a step could stop.
-/
namespace Sys2Proof.Machine

/-- Memory as (address, byte) pairs in one canonical form (`Memory.wf`): addresses strictly rising and below 256, no byte
equal to what an unlisted address reads as (rule R10; log entry 5). -/
abbrev Memory := List Host.Cell

/-- The run state (rule R17). -/
inductive RunState where
  | halted
  | running
  deriving DecidableEq, Repr

/-- The codes the fault latch can hold (rules R20, R120); 5 to 7 are never written (93_implementation_defined.md
section 2; log entry 11). -/
inductive FaultCode where
  | noFault
  | outOfBounds
  | unsupportedAluOperation
  | unknownOpcode
  | registerIndexOutOfRange
  deriving DecidableEq, Repr

/-- The items of the output event stream (rule R22). -/
inductive Event where
  | print (v : Byte)
  | haltNotice
  | error (code : FaultCode) (info : Word9)
  deriving DecidableEq, Repr

/-- The levels on the input ports at one rising edge (rule R70). -/
structure Inputs where
  rst : Bool
  start : Bool
  stopReq : Bool
  ldWe : Bool
  ldAddr : Word9
  ldData : Byte
  deriving DecidableEq, Repr

/-- All input lines low: the host does nothing at this edge. -/
def Inputs.idle : Inputs :=
  { rst := false, start := false, stopReq := false, ldWe := false, ldAddr := 0, ldData := 0 }

/-- The state (rule R28). `inputs` is the model's own: what the host drives on the input ports at the coming edges, oldest
first, and nothing (all lines low) after the last (log entry 1). -/
structure State where
  /-- 256 cells of 8 bits (rule R10). -/
  mem : Memory
  /-- `x[0]` to `x[7]` (rule R11). -/
  regs : Vector Byte 8
  /-- The program counter (rule R14). -/
  pc : Word9
  /-- The run state (rule R17). -/
  run : RunState
  /-- The fault latch (rule R20). -/
  fault : FaultCode
  /-- The cause value recorded with it (rule R21). -/
  faultInfo : Word9
  /-- The events emitted since reset, oldest first (rule R22). -/
  events : List Event
  /-- The host's inputs at the coming edges; the model's own (log entry 1). -/
  inputs : List Inputs
  deriving DecidableEq, Repr

/-- The state after reset (rule R27). -/
def State.reset : State :=
  { mem := []
    regs := Vector.replicate 8 0
    pc := 0
    run := .halted
    fault := .noFault
    faultInfo := 0
    events := []
    inputs := [] }

/-- The reasons the machine could stop with a fault. There is none: the spec gives every state a next state, its error
conditions among them (rules R73, R81, R126, R127; log entry 12). -/
inductive Fault where
  deriving DecidableEq, Repr

/-- The reasons an instruction could be refused. -/
inductive Refusal where
  /-- An arm of `exec` without a meaning would answer this. No arm does; it would be safe. -/
  | notModelled (mnemonic : String)
  deriving DecidableEq, Repr

end Sys2Proof.Machine
end

