-- ==== Sys2Proof/Machine/Ops.lean ====
section
/-!
DEFINITION. The named operations over the state: memory (rules R30 to R34), the register-file ports (rule R79), the PC
increment logic (rule R78), the event stream (rule R22), and the error entry (rules R126, R127), which is this
hardware's way of taking an exception. There is no return from an error condition (rule R130): `start` is refused while
the latch is set and only reset clears it, so no operation stands beside the entry.
-/
namespace Sys2Proof.Machine

/-- What a cell that the list does not name reads as: the zero-initialised contents (rules R10, R27). -/
def Memory.fill : Byte := 0x00

/-- The byte at an address of the list. -/
def Memory.read : Memory → Nat → Byte
  | [], _ => Memory.fill
  | (b, v) :: rest, a => if b = a then v else Memory.read rest a

/-- A cell put at its place in a list that does not name its address. -/
def Memory.insertCell (a : Nat) (v : Byte) : Memory → Memory
  | [] => [(a, v)]
  | (b, w) :: rest => if a < b then (a, v) :: (b, w) :: rest else (b, w) :: Memory.insertCell a v rest

/-- The list with `v` at address `a`, in canonical form. -/
def Memory.set (m : Memory) (a : Nat) (v : Byte) : Memory :=
  let others := m.filter fun cell => cell.1 != a
  if v = Memory.fill then others else Memory.insertCell a v others

/-- The list with bytes stored from an address upward. -/
def Memory.setBytes (m : Memory) (a : Nat) : List Byte → Memory
  | [] => m
  | b :: rest => Memory.setBytes (Memory.set m a b) (a + 1) rest

/-- Every address of the list is at least `lo` and below `MEM_SIZE`, addresses strictly rise, and no byte is the one an
unlisted address reads as. -/
def Memory.wfFrom : Nat → Memory → Bool
  | _, [] => true
  | lo, (a, v) :: rest =>
    decide (lo ≤ a) && decide (a < Config.memSize) && (v != Memory.fill) && Memory.wfFrom (a + 1) rest

/-- The canonical form of memory. -/
def Memory.wf (m : Memory) : Bool := Memory.wfFrom 0 m

/-- `MemRead(a, 1)`: the byte, or `none` for `OutOfBounds(a)`; never a substitute byte (rule R31). -/
def memRead (m : Memory) (a : Nat) : Option Byte :=
  if a < Config.memSize then some (Memory.read m a) else none

/-- `MemWrite(a, 1, v)`: the memory after it, or `none` for `OutOfBounds(a)`, in which case no cell changes (rule R32). -/
def memWrite (m : Memory) (a : Nat) (v : Byte) : Option Memory :=
  if a < Config.memSize then some (Memory.set m a v) else none

/-- A read port of the register file (rule R79). -/
def State.readReg (s : State) (i : Fin 8) : Byte := s.regs[i]

/-- The write port of the register file (rule R79). No register is hardwired (rule R12). -/
def State.writeReg (s : State) (i : Fin 8) (v : Byte) : State := { s with regs := s.regs.set i v }

/-- The PC increment logic: one 9-bit adder, not reduced modulo 256 (rule R78). -/
def State.advance (s : State) (len : Nat) : State := { s with pc := s.pc + BitVec.ofNat 9 len }

/-- `emit e` (rule R6). -/
def State.emit (s : State) (e : Event) : State := { s with events := s.events ++ [e] }

/-- `run <- r` (rule R6). -/
def State.setRun (s : State) (r : RunState) : State := { s with run := r }

/-- The error conditions with the value that identifies the cause (rule R120). -/
inductive Condition where
  | outOfBounds (addr : Word9)
  | unsupportedAluOperation (tag : BitVec 2)
  | unknownOpcode (opcode : Byte)
  | registerIndexOutOfRange (op1 : Byte)
  deriving DecidableEq, Repr

/-- `code(C)` (rule R120). -/
def conditionCode : Condition → FaultCode
  | .outOfBounds _ => .outOfBounds
  | .unsupportedAluOperation _ => .unsupportedAluOperation
  | .unknownOpcode _ => .unknownOpcode
  | .registerIndexOutOfRange _ => .registerIndexOutOfRange

/-- The recorded `info`, zero-extended to nine bits (rules R21, R120). -/
def conditionInfo : Condition → Word9
  | .outOfBounds addr => addr
  | .unsupportedAluOperation tag => tag.setWidth 9
  | .unknownOpcode opcode => opcode.setWidth 9
  | .registerIndexOutOfRange op1 => op1.setWidth 9

/-- The `Error(code, info)` event of a condition (rule R22). -/
def conditionEvent (cond : Condition) : Event := .error (conditionCode cond) (conditionInfo cond)

/-- The error entry, halt form (rule R126): the event, the latch and the run state; `pc`, `x` and `mem` keep their
values, and nothing else is saved. -/
def State.raise (s : State) (cond : Condition) : State :=
  { s.emit (conditionEvent cond) with
    fault := conditionCode cond
    faultInfo := conditionInfo cond
    run := .halted }

/-- The error entry, skip form (rule R127): the event and one byte skipped; the engine runs on, the latch is not set. -/
def State.raiseSkip (s : State) (cond : Condition) : State := (s.emit (conditionEvent cond)).advance 1

/-- `UnknownOpcode(opcode)` under the policy (rule R122). -/
def State.raiseUnknownOpcode (c : Config) (s : State) (opcode : Byte) : State :=
  match c.policy with
  | .halt => s.raise (.unknownOpcode opcode)
  | .skip => s.raiseSkip (.unknownOpcode opcode)

end Sys2Proof.Machine
end

