-- ==== Sys2Proof/Machine/Alu.lean ====
section
/-!
DEFINITION. The ALU block (rules R100 to R105, R107, R108). There are no flags (rule R19): its outputs are an 8-bit
result and the `unsupported` line, and no carry, borrow or overflow is recorded anywhere.
-/
namespace Sys2Proof.Machine

/-- The operations the ALU implements (rule R100). -/
inductive AluOp where
  | add
  | sub
  | mul
  deriving DecidableEq, Repr

/-- The operation a 2-bit tag selects; `none` for the tag that is not implemented (rules R104, R105). -/
def aluOp (tag : BitVec 2) : Option AluOp :=
  if tag = 0 then some .add
  else if tag = 1 then some .sub
  else if tag = 2 then some .mul
  else none

/-- The tag MULTIPLY presents (rules R105, R106). -/
def tagMul : BitVec 2 := 2

/-- The result of an implemented operation, modulo 256 (rules R101 to R103). -/
def aluResult (op : AluOp) (a b : Byte) : Byte :=
  match op with
  | .add => a + b
  | .sub => a - b
  | .mul => a * b

/-- `Alu(op, a, b)`: the result, or `none` where the block asserts `unsupported` (rules R100, R104). -/
def alu (tag : BitVec 2) (a b : Byte) : Option Byte := (aluOp tag).map fun op => aluResult op a b

/-- `apply(op, d, s)`: `x[d] <- Alu(op, x[d], x[s])`, both read at the start of the cycle; `none` where the tag is
unsupported, in which case no register is written (rules R100, R104, R108). -/
def State.aluApply (s : State) (tag : BitVec 2) (d src : Fin 8) : Option State :=
  (alu tag (s.readReg d) (s.readReg src)).map fun v => s.writeReg d v

/-- A cycle whose handler applies the ALU and advances by `len`; an unsupported tag raises
`UnsupportedAluOperation(tag)` and nothing of the handler commits (rules R104, R106, R124). -/
def State.aluCycle (s : State) (tag : BitVec 2) (d src : Fin 8) (len : Nat) : State :=
  match s.aluApply tag d src with
  | some t => t.advance len
  | none => s.raise (.unsupportedAluOperation tag)

end Sys2Proof.Machine
end

