-- ==== Sys2Proof/Machine/Arithmetic.lean ====
section
/-!
DEFINITION. The arithmetic family: MULTIPLY (43_alu_multiply.md section 3).
-/
namespace Sys2Proof.Machine

/-- MULTIPLY (rules R106, R109): always `x[0] <- (x[0] * x[1]) mod 256`; the operand bytes are ignored. -/
def execMultiply (_ign1 _ign2 : Operand) (s : State) : Host.Outcome State Fault Refusal :=
  .next (s.aluCycle tagMul 0 1 3)

end Sys2Proof.Machine
end

