-- ==== Sys2Proof/Machine/Control.lean ====
section
/-!
DEFINITION. The control family: HALT (44_halt.md).
-/
namespace Sys2Proof.Machine

/-- HALT (rule R110): the notification and the run state; the pc keeps the address of the HALT byte. -/
def execHalt (s : State) : Host.Outcome State Fault Refusal :=
  .next ((s.emit .haltNotice).setRun .halted)

end Sys2Proof.Machine
end

