-- ==== Sys2Proof/Machine/Operands.lean ====
section
/-!
DEFINITION. The operand forms. There is one: the register-index byte of LOAD_IMMEDIATE (rules R13, R53); the immediate
byte is used as it stands, and the operand bytes of PRINT_REGISTER and MULTIPLY are ignored (rule R54).
-/
namespace Sys2Proof.Machine

/-- The register a whole operand byte names: valid exactly when it is 0 to 7, never masked to three bits (rule R13). -/
def regIndex (op1 : Byte) : Option (Fin 8) :=
  if h : op1.toNat < Config.numRegs then some ⟨op1.toNat, h⟩ else none

end Sys2Proof.Machine
end

