-- ==== Sys2Proof/Machine/DataMovement.lean ====
section
/-!
DEFINITION. The data-movement family: LOAD_IMMEDIATE (41_load_immediate.md).
-/
namespace Sys2Proof.Machine

/-- LOAD_IMMEDIATE (rules R90 to R92). An operand outside memory raises `OutOfBounds` with its address, operand 1 before
operand 2; both outrank an invalid register index (rule R128). -/
def execLoadImmediate (reg imm : Operand) (s : State) : Host.Outcome State Fault Refusal :=
  match reg with
  | none => .next (s.raise (.outOfBounds (s.pc + 1)))
  | some r =>
    match imm with
    | none => .next (s.raise (.outOfBounds (s.pc + 2)))
    | some v =>
      match regIndex r with
      | none => .next (s.raise (.registerIndexOutOfRange r))
      | some i => .next ((s.writeReg i v).advance 3)

end Sys2Proof.Machine
end

