-- ==== Sys2Proof/Machine/Output.lean ====
section
/-!
DEFINITION. The output family: PRINT_REGISTER (42_print_register.md).
-/
namespace Sys2Proof.Machine

/-- PRINT_REGISTER (rules R95 to R97): always register 0; the operand byte is ignored. -/
def execPrintRegister (_ign1 : Operand) (s : State) : Host.Outcome State Fault Refusal :=
  .next ((s.emit (.print (s.readReg 0))).advance 2)

end Sys2Proof.Machine
end

