-- ==== Sys2Proof/Machine/Dispatch.lean ====
section
/-!
DEFINITION. The instruction dispatch multiplexer (rule R77): one arm per instruction.
-/
namespace Sys2Proof.Machine

/-- The effect of the instruction of the current cycle, on the state at the cycle's start (rules R80, R81). -/
def exec (i : Instr) (s : State) : Host.Outcome State Fault Refusal :=
  match i with
  | .halt => Sys2Proof.Machine.execHalt s
  | .printRegister ign1 => Sys2Proof.Machine.execPrintRegister ign1 s
  | .loadImmediate reg imm => Sys2Proof.Machine.execLoadImmediate reg imm s
  | .multiply ign1 ign2 => Sys2Proof.Machine.execMultiply ign1 ign2 s

end Sys2Proof.Machine
end

