-- ==== Sys2Proof/Machine/Cycle.lean ====
section
/-!
DEFINITION. The clock cycle: the fetch unit (rules R74, R75), `Step()` (rule R81), the host's moves (rules R44 to R46,
R133, R140, R144, R145) and the clock-edge case analysis that orders them (rule R73).
-/
namespace Sys2Proof.Machine

/-- The bytes the fetch unit reads at `pc`, `pc + 1` and `pc + 2`: those that have a cell, in address order. The
addresses are not truncated (rules R74, R75). -/
def State.window (s : State) : List Byte :=
  [0, 1, 2].filterMap fun k => memRead s.mem (s.pc.toNat + k)

/-- `Step()`, the work of one RUNNING cycle (rule R81). -/
def cycle (c : Config) (s : State) : Host.Outcome State Fault Refusal :=
  match decode s.window with
  | .noOpcode => .next (s.raise (.outOfBounds s.pc))
  | .unknownOpcode opcode => .next (s.raiseUnknownOpcode c opcode)
  | .instr i _ => exec i s

/-- Reset (rules R27, R140): every item of the spec's state takes its reset value; what the host does next is its own. -/
def State.resetEdge (s : State) : State := { State.reset with inputs := s.inputs }

/-- The load port while HALTED: the byte lands, or the write is refused and nothing changes (rules R44, R46). -/
def State.loadPort (s : State) (inp : Inputs) : State :=
  if inp.ldWe then
    match memWrite s.mem inp.ldAddr.toNat inp.ldData with
    | some m => { s with mem := m }
    | none => s
  else s

/-- `start` while HALTED: ignored while the fault latch is set; it does not touch the pc (rule R144). -/
def State.startPort (s : State) (inp : Inputs) : State :=
  if inp.start ∧ s.fault = .noFault then s.setRun .running else s

/-- The state after a rising edge at which `inp` is sampled, by the first matching case (rule R73). -/
def clockEdge (c : Config) (inp : Inputs) (s : State) : Host.Outcome State Fault Refusal :=
  if inp.rst then .next s.resetEdge
  else
    match s.run with
    | .halted => .next ((s.loadPort inp).startPort inp)
    | .running => if c.hasStopReq && inp.stopReq then .next (s.setRun .halted) else cycle c s

/-- The levels on the input ports at the coming edge (log entry 1). -/
def State.pins (s : State) : Inputs := s.inputs.head?.getD Inputs.idle

/-- The state once those levels have been sampled: the host's next ones stand on the ports. -/
def State.sampled (s : State) : State := { s with inputs := s.inputs.tail }

/-- One rising edge of a machine with the given parameters (rule R73). -/
def stepWith (c : Config) (s : State) : Host.Outcome State Fault Refusal := clockEdge c s.pins s.sampled

/-- Where an instruction of the longest kind can be placed to be fetched next: at the pc, or at address 0 where fewer than
three cells follow the pc (log entry 7). -/
def State.placeAddr (s : State) : Word9 := if s.pc.toNat + 3 ≤ Config.memSize then s.pc else 0

end Sys2Proof.Machine
end

