-- ==== Sys2Proof/Machine/Step.lean ====
section
/-!
DEFINITION. The machine's step, one rising edge with the default parameters (rules R4, R73; log entry 2), and the
placing of one instruction where the step fetches.
-/
namespace Sys2Proof.Machine

/-- One step: one rising edge of the clock. -/
def step (s : State) : Host.Outcome State Fault Refusal := stepWith Config.standard s

/-- `s` with the instruction of a table word placed so that the next step runs it: its bytes in memory at the pc, the
engine RUNNING as after `start`, and no host input at that edge (log entry 7). -/
def State.withFetchWord (s : State) (nbits w : Nat) : State :=
  { s with
    mem := Memory.setBytes s.mem s.placeAddr.toNat (tableBytes nbits w)
    pc := s.placeAddr
    run := .running
    inputs := if s.inputs = [] then [] else Inputs.idle :: s.inputs }

end Sys2Proof.Machine
end

