-- ==== Sys2Proof/Machine/Loader.lean ====
section
/-!
DEFINITION. The loader, which is outside the hardware (rule R3): what the host drives on the ports to boot a program
(rules R44, R142), and the text format it takes programs in (rules R62 to R64).
-/
namespace Sys2Proof.Machine

/-- One edge with `rst = 1` (rule R140). -/
def resetInput : Inputs := { Inputs.idle with rst := true }

/-- One load-port write (rule R44). DESIGN CHOICE (log entry 16): an address of 512 or more, which the 9 lines of `ld_addr`
cannot carry and for which the spec gives no level, is taken modulo 512. `bootInputs` never asks for one. -/
def loadInput (a : Nat) (v : Byte) : Inputs :=
  { Inputs.idle with ldWe := true, ldAddr := BitVec.ofNat 9 a, ldData := v }

/-- One edge with `start = 1` (rule R144). -/
def startInput : Inputs := { Inputs.idle with start := true }

/-- The load-port writes that place bytes from an address upward (rules R44, R142). -/
def loadInputs (a : Nat) : List Byte → List Inputs
  | [] => []
  | b :: rest => loadInput a b :: loadInputs (a + 1) rest

/-- The boot sequence: reset, load from address 0, start (rule R142). A program longer than memory is refused (rule R46). -/
def bootInputs (program : List Byte) : Option (List Inputs) :=
  if program.length ≤ Config.memSize then some (resetInput :: (loadInputs 0 program ++ [startInput])) else none

/-- White space in a line of program text (rule R3; log entry 9). -/
def isBlank (ch : Char) : Bool := ch == ' ' || ch == '\t' || ch == '\r'

/-- A binary digit. -/
def isBinaryDigit (ch : Char) : Bool := ch == '0' || ch == '1'

/-- A line without its comment and the white space around what is left (rules R3, R62). -/
def lineContent (line : List Char) : List Char :=
  ((((line.takeWhile fun ch => ch != '#').dropWhile isBlank).reverse).dropWhile isBlank).reverse

/-- The value of a digit string, most significant bit first (rule R62). -/
def binaryValue (digits : List Char) : Nat :=
  digits.foldl (fun n ch => 2 * n + (if ch == '1' then 1 else 0)) 0

/-- The byte a line of program text gives, and none for a blank or comment-only line (rule R62). DESIGN CHOICE (log entry
17): a malformed line gives none too and the load goes on, the lenient policy; rules R63 and R125 and U6 of
93_implementation_defined.md leave it to the tooling to report a `LoadError` instead. A line of binary digits that are
not one string of eight is not settled by the spec (N20; log entry 9). -/
def loaderLine (line : List Char) : Option Byte :=
  let content := lineContent line
  if content.isEmpty then none
  else if content.all isBinaryDigit && content.length == 8 then some (BitVec.ofNat 8 (binaryValue content))
  else if content.all (fun ch => isBinaryDigit ch || isBlank ch) then Config.oddDigitLine content
  else none

/-- The program bytes of a text, in line order (rule R64). -/
def loaderBytes (lines : List (List Char)) : List Byte := lines.filterMap loaderLine

end Sys2Proof.Machine
end

