-- ==== Sys2Proof/Machine/Ports.lean ====
section
/-!
DEFINITION. The output ports: `running`, `fault_code`, `fault_info`, `ld_err` (rule R71), the event port (rule R72) and
the observation port (rule R134). They are functions of the state and the sampled inputs; reading them changes nothing.
-/
namespace Sys2Proof.Machine

/-- The level of `running`: HALTED = 0, RUNNING = 1 (rules R17, R71). -/
def runningLine : RunState → BitVec 1
  | .halted => 0
  | .running => 1

/-- The 3-bit code of the fault latch (rules R20, R71). -/
def faultBits : FaultCode → BitVec 3
  | .noFault => 0
  | .outOfBounds => 1
  | .unsupportedAluOperation => 2
  | .unknownOpcode => 3
  | .registerIndexOutOfRange => 4

/-- `ld_err`: the load port presents an out-of-range write while HALTED, reset aside (rules R46, R71, R73; log entry 13). -/
def loadError (inp : Inputs) (s : State) : Bool :=
  !inp.rst && decide (s.run = .halted) && inp.ldWe && decide (Config.memSize ≤ inp.ldAddr.toNat)

/-- The lines `ev_kind`, `ev_code`, `ev_data` (rule R72). -/
structure EventLines where
  kind : BitVec 2
  code : BitVec 3
  data : Word9
  deriving DecidableEq, Repr

/-- What the event port carries for an event (rule R72). -/
def eventLines : Event → EventLines
  | .print v => { kind := 0, code := 0, data := v.setWidth 9 }
  | .haltNotice => { kind := 1, code := 0, data := 0 }
  | .error code info => { kind := 2, code := faultBits code, data := info }

/-- The event emitted at the coming edge, if any: what the edge adds to the stream (rules R22, R72). An edge with
`rst = 1` emits none. -/
def emittedEvent (c : Config) (s : State) : Option Event :=
  if s.pins.rst then none
  else
    match stepWith c s with
    | .next t => (t.events.drop s.events.length).head?
    | .fault _ => none
    | .refused _ => none

/-- The event port at the coming edge: `none` while `ev_valid` is low; the spec gives the other lines no value then
(rule R72; log entry 10). -/
def eventPort (c : Config) (s : State) : Option EventLines := (emittedEvent c s).map eventLines

/-- One cell of the observation window with its valid bit (rule R134). -/
structure ObservedCell where
  valid : Bool
  data : Byte
  deriving DecidableEq, Repr

/-- The cell at an address; not valid, and its data 0, when the address is 256 or more (rule R134). -/
def observeCell (m : Memory) (a : Nat) : ObservedCell :=
  match memRead m a with
  | some b => { valid := true, data := b }
  | none => { valid := false, data := 0 }

/-- The observation port (rule R134). -/
structure Observation where
  dbgPc : Word9
  dbgX : Vector Byte 8
  dbgM0 : ObservedCell
  dbgM1 : ObservedCell
  dbgM2 : ObservedCell
  deriving DecidableEq, Repr

/-- The observation port in a state (rule R134). -/
def observe (s : State) : Observation :=
  { dbgPc := s.pc
    dbgX := s.regs
    dbgM0 := observeCell s.mem s.pc.toNat
    dbgM1 := observeCell s.mem (s.pc.toNat + 1)
    dbgM2 := observeCell s.mem (s.pc.toNat + 2) }

/-- All output ports at the coming edge (rules R71, R72, R134). -/
structure Outputs where
  running : BitVec 1
  faultCode : BitVec 3
  faultInfo : Word9
  ldErr : Bool
  event : Option EventLines
  observation : Observation
  deriving DecidableEq, Repr

/-- The output ports of a machine with the given parameters, in a state. -/
def outputs (c : Config) (s : State) : Outputs :=
  { running := runningLine s.run
    faultCode := faultBits s.fault
    faultInfo := s.faultInfo
    ldErr := loadError s.pins s
    event := eventPort c s
    observation := observe s }

end Sys2Proof.Machine
end

