-- ==== Sys2Proof/Safety.lean ====
section
/-!
DEFINITION. The terms in which claims about the machine are stated: the invariant of its states, runs and how they end
(rule R149), which condition a cycle raises (rule R128), what can reach the event stream (rule R97), and the spec's own
listings of a cycle (rule R81) and of a clock edge (rule R73), written over plain numbers so that the machine can be
compared with them.
-/
namespace Sys2Proof.Machine

/-- The recorded cause is one the latched code can have (rules R20, R21; 93_implementation_defined.md section 2).
`UnsupportedAluOperation` is never latched: no instruction presents an unsupported tag (rule R104). -/
def causeLegal (code : FaultCode) (info : Word9) : Bool :=
  match code with
  | .noFault => info == 0
  | .outOfBounds => decide (256 ≤ info.toNat) && decide (info.toNat ≤ 258)
  | .unsupportedAluOperation => false
  | .unknownOpcode => decide (info.toNat < 256) && (lookup (info.setWidth 8)).isNone
  | .registerIndexOutOfRange => decide (8 ≤ info.toNat) && decide (info.toNat < 256)

/-- The invariant of the machine's states: memory is in its canonical form, the pc is 0 to 258 (rule R14), the latch holds
a legal cause (rules R20, R21), a faulted engine is HALTED (rules R126, R130), and the last event is its report. -/
abbrev State.Inv (s : State) : Prop :=
  Memory.wf s.mem = true ∧ s.pc.toNat ≤ 258 ∧ causeLegal s.fault s.faultInfo = true ∧
    (s.fault ≠ .noFault → s.run = .halted ∧ s.events.getLast? = some (.error s.fault s.faultInfo))

/-- The coming edge runs `Step()`: not a reset, the engine RUNNING, and no stop request that counts (rule R73). -/
def State.runsCycle (c : Config) (s : State) : Bool :=
  !s.pins.rst && decide (s.run = .running) && !(c.hasStopReq && s.pins.stopReq)

/-- `k` edges. -/
def runWith (c : Config) : Nat → State → Host.Outcome State Fault Refusal
  | 0, s => .next s
  | k + 1, s =>
    match stepWith c s with
    | .next t => runWith c k t
    | .fault r => .fault r
    | .refused r => .refused r

/-- The whole effect of the error entry, halt form, field by field as rule R126 lists it. -/
def State.errorEntry (s : State) (code : FaultCode) (info : Word9) : State :=
  { mem := s.mem
    regs := s.regs
    pc := s.pc
    run := .halted
    fault := code
    faultInfo := info
    events := s.events ++ [.error code info]
    inputs := s.inputs }

/-- The condition the cycle at `pc` raises: the first that applies in the order of rule R128. -/
def State.firstCondition (s : State) : Option Condition :=
  let pc := s.pc.toNat
  let opcode := Memory.read s.mem pc
  if 256 ≤ pc then some (.outOfBounds (BitVec.ofNat 9 pc))
  else if opcode ≠ 0x01 ∧ opcode ≠ 0x47 ∧ opcode ≠ 0x82 ∧ opcode ≠ 0xA2 then some (.unknownOpcode opcode)
  else if opcode = 0x82 ∧ 256 ≤ pc + 1 then some (.outOfBounds (BitVec.ofNat 9 (pc + 1)))
  else if opcode = 0x82 ∧ 256 ≤ pc + 2 then some (.outOfBounds (BitVec.ofNat 9 (pc + 2)))
  else if opcode = 0x82 ∧ 8 ≤ (Memory.read s.mem (pc + 1)).toNat then
    some (.registerIndexOutOfRange (Memory.read s.mem (pc + 1)))
  else none

/-- A normal end of a run (rule R149). -/
def State.normalEnd (s : State) : Prop :=
  s.run = .halted ∧ s.fault = .noFault ∧ memRead s.mem s.pc.toNat = some 0x01 ∧ s.events.getLast? = some .haltNotice

/-- A faulted end of a run (rule R149). -/
def State.faultedEnd (s : State) : Prop :=
  s.run = .halted ∧ s.fault ≠ .noFault ∧ s.events.getLast? = some (.error s.fault s.faultInfo)

/-- The states agree on everything but `x[2]` to `x[7]`, the registers no instruction reads (rules R12, R97). -/
def sameButUpperRegs (s t : State) : Prop :=
  s.mem = t.mem ∧ s.regs[0] = t.regs[0] ∧ s.regs[1] = t.regs[1] ∧ s.pc = t.pc ∧ s.run = t.run ∧ s.fault = t.fault ∧
    s.faultInfo = t.faultInfo ∧ s.events = t.events ∧ s.inputs = t.inputs

/-! The listings of rules R81 and R73 over natural numbers. -/

/-- An event as the listing emits it (rule R6). -/
inductive ListedEvent where
  | print (v : Nat)
  | haltNotice
  | error (code info : Nat)
  deriving DecidableEq, Repr

/-- The state as the listing names it: `mem[a]` for `a < 256`, `x[i]` for `i < 8`, and the rest (rule R28). -/
structure Listing where
  mem : Nat → Nat
  x : Nat → Nat
  pc : Nat
  run : RunState
  fault : Nat
  faultInfo : Nat
  events : List ListedEvent

/-- `raise C(info)` in its halt form, as the listing of rule R81 writes it. -/
def Listing.raise (l : Listing) (code info : Nat) : Listing :=
  { l with events := l.events ++ [.error code info], fault := code, faultInfo := info, run := .halted }

/-- `a[i] <- v`. -/
def assign (a : Nat → Nat) (i v : Nat) : Nat → Nat := fun j => if j = i then v else a j

/-- `Step()`, line by line (rule R81). -/
def Listing.step (policy : UnknownOpcodePolicy) (l : Listing) : Listing :=
  if 256 ≤ l.pc then l.raise 1 l.pc
  else if l.mem l.pc = 0x82 then
    if 256 ≤ l.pc + 1 then l.raise 1 (l.pc + 1)
    else if 256 ≤ l.pc + 2 then l.raise 1 (l.pc + 2)
    else if 8 ≤ l.mem (l.pc + 1) then l.raise 4 (l.mem (l.pc + 1))
    else { l with x := assign l.x (l.mem (l.pc + 1)) (l.mem (l.pc + 2)), pc := l.pc + 3 }
  else if l.mem l.pc = 0x47 then { l with events := l.events ++ [.print (l.x 0)], pc := l.pc + 2 }
  else if l.mem l.pc = 0xA2 then { l with x := assign l.x 0 (l.x 0 * l.x 1 % 256), pc := l.pc + 3 }
  else if l.mem l.pc = 0x01 then { l with events := l.events ++ [.haltNotice], run := .halted }
  else
    match policy with
    | .halt => l.raise 3 (l.mem l.pc)
    | .skip => { l with events := l.events ++ [.error 3 (l.mem l.pc)], pc := l.pc + 1 }

/-- The reset state (rule R27). -/
def Listing.reset : Listing :=
  { mem := fun _ => 0, x := fun _ => 0, pc := 0, run := .halted, fault := 0, faultInfo := 0, events := [] }

/-- The case analysis of a rising edge, line by line (rule R73). -/
def Listing.edge (c : Config) (inp : Inputs) (l : Listing) : Listing :=
  if inp.rst = true then Listing.reset
  else if l.run = .halted then
    { l with
      mem := if inp.ldWe = true ∧ inp.ldAddr.toNat < 256 then assign l.mem inp.ldAddr.toNat inp.ldData.toNat else l.mem
      run := if inp.start = true ∧ l.fault = 0 then .running else l.run }
  else if c.hasStopReq = true ∧ inp.stopReq = true then { l with run := .halted }
  else l.step c.policy

/-- The number a code has (rule R20). -/
def codeNumber : FaultCode → Nat
  | .noFault => 0
  | .outOfBounds => 1
  | .unsupportedAluOperation => 2
  | .unknownOpcode => 3
  | .registerIndexOutOfRange => 4

/-- An event over numbers. -/
def listedEvent : Event → ListedEvent
  | .print v => .print v.toNat
  | .haltNotice => .haltNotice
  | .error code info => .error (codeNumber code) info.toNat

/-- The machine's state as the listing names it. -/
def State.view (s : State) : Listing :=
  { mem := fun a => if a < 256 then (Memory.read s.mem a).toNat else 0
    x := fun i => if h : i < 8 then (s.regs[i]).toNat else 0
    pc := s.pc.toNat
    run := s.run
    fault := codeNumber s.fault
    faultInfo := s.faultInfo.toNat
    events := s.events.map listedEvent }

end Sys2Proof.Machine
end

