-- ==== Sys2Proof/Certificates/Slice0/Obligations.lean ====
section
/-!
DEFINITION. The statements for the provers, in the order of OBLIGATIONS.json. Each docstring names the rule of spec/ it
formalises and, where the rule is one of the spec's own decisions (92_eei_decisions.md), inferences, or a choice of this
model, says so. Wherever a statement says what becomes of `inputs`, or that an edge runs on `sampled`, that the
host's levels stand in the state and that each edge samples and drops them is the model's choice (log entry 1).
-/
open Sys2Proof Sys2Proof.Machine

/-! Encoding (30_encoding.md). -/

/-- Words written out from the formats of rule R51 and the opcodes of rule R55 decode to what they stand for, and single
bytes that are no opcode do not (rule R56). -/
def Obligations.DecodesTheSpecsWords : Prop :=
  decode [0x01] = .instr .halt [] ∧
    decode [0x47, 0x82, 0x01] = .instr (.printRegister (some 0x82)) [0x01] ∧
    decode [0x82, 0x07, 0xFF] = .instr (.loadImmediate (some 7) (some 255)) [] ∧
    decode [0xA2, 0x47, 0x01] = .instr (.multiply (some 0x47) (some 0x01)) [] ∧
    decode [0x00, 0x01] = .unknownOpcode 0x00 ∧ decode [0xA0] = .unknownOpcode 0xA0

/-- Rule R55: the dispatch table, row by row (opcode, handler, format, length), and `absent` for every other value. -/
def Obligations.LookupBindsFourOpcodes : Prop :=
  (∀ opcode : Byte, lookup opcode =
      if opcode = 0x01 then some .halt
      else if opcode = 0x47 then some .printRegister
      else if opcode = 0x82 then some .loadImmediate
      else if opcode = 0xA2 then some .multiply
      else none) ∧
    handlerLength .halt = 1 ∧ handlerLength .printRegister = 2 ∧ handlerLength .loadImmediate = 3 ∧
    handlerLength .multiply = 3 ∧
    encode .halt = [0x01] ∧ (∀ b : Byte, encode (.printRegister (some b)) = [0x47, b]) ∧
    (∀ r v : Byte, encode (.loadImmediate (some r) (some v)) = [0x82, r, v]) ∧
    (∀ b1 b2 : Byte, encode (.multiply (some b1) (some b2)) = [0xA2, b1, b2])

/-- The length of an instruction is a function of its opcode byte alone (rules R50, R58): where the operand bytes exist,
exactly the handler's length is consumed, whatever those bytes are. -/
def Obligations.LengthDependsOnOpcodeAlone : Prop :=
  ∀ (opcode : Byte) (h : Handler) (rest : List Byte), lookup opcode = some h → handlerLength h ≤ rest.length + 1 →
    ∃ i, decode (opcode :: rest) = .instr i (rest.drop (handlerLength h - 1)) ∧ i.length = handlerLength h ∧ i.whole = true

/-- Decoding rejects by name, and only these (rules R55, R56): an empty window, and an opcode byte that is none of the
four. -/
def Obligations.DecodeRejectsOnlyByName : Prop :=
  (∀ bytes, decode bytes = .noOpcode ↔ bytes = []) ∧
    ∀ bytes opcode, decode bytes = .unknownOpcode opcode ↔
      (∃ rest, bytes = opcode :: rest) ∧ opcode ≠ 0x01 ∧ opcode ≠ 0x47 ∧ opcode ≠ 0x82 ∧ opcode ≠ 0xA2

/-- Decode and encode agree, both ways, at every operand value and also where the end of memory cuts an instruction off
(rules R51, R55; the cut-off forms are the model's, log entry 4). -/
def Obligations.DecodeEncodeAgree : Prop :=
  (∀ (i : Instr) (rest : List Byte), i.wellFormed = true → (i.whole = true ∨ rest = []) →
      decode (encode i ++ rest) = .instr i rest) ∧
    ∀ (bytes : List Byte) (i : Instr) (rest : List Byte), decode bytes = .instr i rest →
      bytes = encode i ++ rest ∧ i.wellFormed = true ∧ (i.whole = true ∨ rest = [])

/-! Memory (20_memory.md). -/

/-- Rules R32 and R33: a write in range lands and is read back, no other cell changes; out of range it fails and there is
no memory in which a cell has changed. -/
def Obligations.WriteThenReadLaws : Prop :=
  ∀ (m : Memory) (a : Nat) (v : Byte),
    (a < 256 → ∃ m', memWrite m a v = some m' ∧ memRead m' a = some v ∧ ∀ b, b ≠ a → memRead m' b = memRead m b) ∧
      (256 ≤ a → memWrite m a v = none)

/-- The model's representation (log entry 5): two memories in canonical form that read alike at every address of rule
R39 are the same data. -/
def Obligations.CanonicalMemoriesAreEqual : Prop :=
  ∀ m m' : Memory, Memory.wf m = true → Memory.wf m' = true → (∀ a, a < 256 → memRead m a = memRead m' a) → m = m'

/-! The ALU (43_alu_multiply.md section 1). -/

/-- The three results of the ALU block modulo 256, over exact integers (rules R101, R102, R103), under the tags 0, 1, 2 of
rule R105, a numbering that is decision D20, the spec's own (log entry 3). -/
def Obligations.AluComputesModulo256 : Prop :=
  ∀ a b : Byte,
    (∃ r : Byte, alu 0 a b = some r ∧ (r.toNat : Int) = ((a.toNat : Int) + b.toNat) % 256) ∧
      (∃ r : Byte, alu 1 a b = some r ∧ (r.toNat : Int) = ((a.toNat : Int) - b.toNat) % 256) ∧
      (∃ r : Byte, alu 2 a b = some r ∧ (r.toNat : Int) = ((a.toNat : Int) * b.toNat) % 256)

/-- `apply(op, d, s)` writes `Alu(op, x[d], x[s])`, both read at the start, to the destination and changes nothing else
(rule R100); with `d = s` the results are `2v`, `0` and `v * v` modulo 256 (rule R108); the unsupported tag writes no
register (rule R104); MULTIPLY applies MUL to the fixed registers 0 and 1 and advances the pc by 3 (rule R106). The tags
0 to 3 are those of rule R105, decision D20, the spec's own (log entry 3). -/
def Obligations.AluApplyWritesDestinationOnly : Prop :=
  (∀ (s : State) (d src : Fin 8), s.aluApply 3 d src = none) ∧
    (∀ (s : State) (tag : BitVec 2) (d src : Fin 8), tag ≠ 3 →
      ∃ t, s.aluApply tag d src = some t ∧ alu tag s.regs[d] s.regs[src] = some t.regs[d] ∧
        (∀ j : Fin 8, j ≠ d → t.regs[j] = s.regs[j]) ∧ t = { s with regs := t.regs }) ∧
    (∀ (s : State) (d : Fin 8),
      (∃ t, s.aluApply 0 d d = some t ∧ t.regs[d].toNat = 2 * s.regs[d].toNat % 256) ∧
        (∃ t, s.aluApply 1 d d = some t ∧ t.regs[d].toNat = 0) ∧
        (∃ t, s.aluApply 2 d d = some t ∧ t.regs[d].toNat = s.regs[d].toNat * s.regs[d].toNat % 256)) ∧
    ∀ (s : State) (b1 b2 : Operand), ∃ t, s.aluApply 2 0 1 = some t ∧
      exec (.multiply b1 b2) s = .next { t with pc := s.pc + 3 }

/-- Rule R104 and decision D27 (the spec's own): a datapath cycle that presented tag 3 would write no register and take
the error entry with code 2 and the tag as cause. -/
def Obligations.UnsupportedAluTagHalts : Prop :=
  (∀ a b : Byte, alu 3 a b = none) ∧
    ∀ (s : State) (d src : Fin 8) (len : Nat), s.aluCycle 3 d src len = s.errorEntry .unsupportedAluOperation 3

/-! What each instruction does when it is executed. -/

/-- Rule R90, the instruction alone: with both operand bytes present and a register index of 0 to 7, `x[r]` takes the
immediate, the pc advances by 3, and nothing else changes. -/
def Obligations.ExecLoadImmediateWritesRegister : Prop :=
  ∀ (s : State) (r v : Byte), r.toNat < 8 →
    ∃ t, exec (.loadImmediate (some r) (some v)) s = .next t ∧
      (∀ j : Fin 8, t.regs[j] = if j.val = r.toNat then v else s.regs[j]) ∧
      t = { s with regs := t.regs, pc := s.pc + 3 }

/-- Where LOAD_IMMEDIATE raises a condition (rules R91, R92, R128; decisions D8, D9, D14 are the spec's own): operand 1
outside memory, operand 2 outside memory, an index of 8 or more; the index is never truncated, nothing commits. That an
operand outside memory is an absent one is the model's choice (log entry 4), and that an absent operand records `pc + 1`
or `pc + 2` at every pc, also at those where a fetch would find it, is the model's reading (log entry 14, DEDUCED). -/
def Obligations.ExecLoadImmediateRaises : Prop :=
  (∀ (s : State) (imm : Operand), exec (.loadImmediate none imm) s = .next (s.errorEntry .outOfBounds (s.pc + 1))) ∧
    (∀ (s : State) (r : Byte), exec (.loadImmediate (some r) none) s = .next (s.errorEntry .outOfBounds (s.pc + 2))) ∧
    ∀ (s : State) (r v : Byte), 8 ≤ r.toNat →
      exec (.loadImmediate (some r) (some v)) s = .next (s.errorEntry .registerIndexOutOfRange (r.setWidth 9))

/-- Rule R95, the instruction alone: `Print(x[0])` whatever the operand byte, the pc advances by 2, nothing else changes. -/
def Obligations.ExecPrintRegisterEmits : Prop :=
  ∀ (s : State) (b : Operand),
    exec (.printRegister b) s = .next { s with events := s.events ++ [.print s.regs[0]], pc := s.pc + 2 }

/-- Rule R106, the instruction alone: `x[0]` takes the product modulo 256 whatever the operand bytes, the pc advances by
3, nothing else changes. -/
def Obligations.ExecMultiplyWritesProduct : Prop :=
  ∀ (s : State) (b1 b2 : Operand),
    ∃ t, exec (.multiply b1 b2) s = .next t ∧
      t.regs[0].toNat = s.regs[0].toNat * s.regs[1].toNat % 256 ∧
      (∀ j : Fin 8, j ≠ 0 → t.regs[j] = s.regs[j]) ∧
      t = { s with regs := t.regs, pc := s.pc + 3 }

/-- Rule R110, the instruction alone: `HaltNotice`, the engine HALTED, the pc and everything else unchanged. -/
def Obligations.ExecHaltStops : Prop :=
  ∀ s : State, exec .halt s = .next { s with events := s.events ++ [.haltNotice], run := .halted }

/-- The frame of all four instructions (rules R12, R37, R90, R95, R106, R110): no byte of memory changes and the host's
inputs are not touched; HALT and PRINT_REGISTER write no register; MULTIPLY writes `x[0]` only; LOAD_IMMEDIATE writes
the register its index byte names and no other; the latch moves only when LOAD_IMMEDIATE raises a condition, and then
neither a register nor the pc does. -/
def Obligations.ExecLeavesTheRestUnchanged : Prop :=
  ∀ (i : Instr) (s t : State), exec i s = .next t →
    (∀ a, memRead t.mem a = memRead s.mem a) ∧ t.inputs = s.inputs ∧
      match i with
      | .halt => t.regs = s.regs ∧ t.pc = s.pc ∧ t.fault = s.fault ∧ t.faultInfo = s.faultInfo
      | .printRegister _ => t.regs = s.regs ∧ t.run = s.run ∧ t.fault = s.fault ∧ t.faultInfo = s.faultInfo
      | .multiply _ _ =>
        (∀ j : Fin 8, j ≠ 0 → t.regs[j] = s.regs[j]) ∧ t.run = s.run ∧ t.fault = s.fault ∧ t.faultInfo = s.faultInfo ∧
          t.events = s.events
      | .loadImmediate reg _ =>
        (∀ j : Fin 8, reg ≠ some (BitVec.ofNat 8 j.val) → t.regs[j] = s.regs[j]) ∧
          ((t.run = s.run ∧ t.fault = s.fault ∧ t.faultInfo = s.faultInfo ∧ t.events = s.events) ∨
            (t.regs = s.regs ∧ t.pc = s.pc))

/-! One cycle of the running engine (rules R73, R81). `runsCycle` says that the coming edge runs `Step()`. -/

/-- A step runs the decoded instruction: when the bytes at the pc decode to `i`, the edge is `exec i` on the state with
the edge's inputs sampled; nothing is added around it (rules R77, R81, R83). Under any parameters an edge that runs
`Step()` is `cycle` on that state. That the inputs stand in the state and are sampled is the model's choice (log entry
1). -/
def Obligations.StepRunsDecodedInstruction : Prop :=
  (∀ (s : State) (i : Instr) (rest : List Byte), s.runsCycle Config.standard = true → decode s.window = .instr i rest →
      step s = exec i s.sampled) ∧
    (∀ (c : Config) (s : State) (i : Instr) (rest : List Byte), s.runsCycle c = true → decode s.window = .instr i rest →
      stepWith c s = exec i s.sampled) ∧
    ∀ (c : Config) (s : State), s.runsCycle c = true → stepWith c s = cycle c s.sampled

/-- The bytes of an encoded instruction, standing in memory from the pc on, are what the next cycle runs (rules R35, R51,
R74, R75). -/
def Obligations.EncodedInstructionInMemoryRuns : Prop :=
  ∀ (s : State) (i : Instr), s.runsCycle Config.standard = true → i.whole = true →
    (∀ k : Nat, k < (encode i).length → memRead s.mem (s.pc.toNat + k) = (encode i)[k]?) →
    step s = exec i s.sampled

/-- Rule R74: the opcode fetch outside memory takes the error entry and decodes nothing; inside memory the opcode is
`mem[pc]`. `cycle` is `Step()`. -/
def Obligations.OpcodeFetchChecksRange : Prop :=
  ∀ (c : Config) (s : State),
    (256 ≤ s.pc.toNat → s.window = [] ∧ cycle c s = .next (s.errorEntry .outOfBounds s.pc)) ∧
      (s.pc.toNat < 256 → ∃ opcode rest, memRead s.mem s.pc.toNat = some opcode ∧ s.window = opcode :: rest)

/-- Rule R90: `Step()` on a LOAD_IMMEDIATE at `pc`, its two conditions included; when it succeeds nothing but `x[r]` and
the pc changes, so there is no event. -/
def Obligations.LoadImmediateCycle : Prop :=
  ∀ (c : Config) (s : State), memRead s.mem s.pc.toNat = some 0x82 →
    (s.pc.toNat = 254 ∨ s.pc.toNat = 255 → cycle c s = .next (s.errorEntry .outOfBounds 256)) ∧
      ∀ r v : Byte, memRead s.mem (s.pc.toNat + 1) = some r → memRead s.mem (s.pc.toNat + 2) = some v →
        (8 ≤ r.toNat → cycle c s = .next (s.errorEntry .registerIndexOutOfRange (r.setWidth 9))) ∧
          (r.toNat < 8 → ∃ t, cycle c s = .next t ∧
            (∀ j : Fin 8, t.regs[j] = if j.val = r.toNat then v else s.regs[j]) ∧
            t.pc.toNat = s.pc.toNat + 3 ∧ t = { s with regs := t.regs, pc := t.pc })

/-- Rule R92 (decision D8 is the spec's own): a LOAD_IMMEDIATE that ends exactly at address 255 completes, and the fetch
after it raises `OutOfBounds(256)`. -/
def Obligations.LoadImmediateEndingAtLastAddress : Prop :=
  ∀ (c : Config) (s : State) (r v : Byte), s.runsCycle c = true → s.pc.toNat = 253 →
    memRead s.mem 253 = some 0x82 → memRead s.mem 254 = some r → memRead s.mem 255 = some v → r.toNat < 8 →
    ∃ t, stepWith c s = .next t ∧ t.pc.toNat = 256 ∧ t.run = .running ∧ (∀ j : Fin 8, j.val = r.toNat → t.regs[j] = v) ∧
      (t.runsCycle c = true → stepWith c t = .next (t.sampled.errorEntry .outOfBounds 256))

/-- Rule R95: `Step()` on a PRINT_REGISTER at `pc`, and what the event port carries at an edge that runs it. -/
def Obligations.PrintRegisterCycle : Prop :=
  ∀ (c : Config) (s : State), memRead s.mem s.pc.toNat = some 0x47 →
    (∃ t, cycle c s = .next t ∧ t.pc.toNat = s.pc.toNat + 2 ∧ t.events = s.events ++ [.print s.regs[0]] ∧
      t = { s with events := t.events, pc := t.pc }) ∧
      (s.runsCycle c = true → eventPort c s = some { kind := 0, code := 0, data := (s.regs[0]).setWidth 9 })

/-- Rule R96 (decisions D13 and D3 are the spec's own): at the last address PRINT_REGISTER is executed in full, the pc
becomes 257, and the next cycle raises `OutOfBounds(257)`. -/
def Obligations.PrintRegisterAtLastAddress : Prop :=
  ∀ (c : Config) (s : State), s.runsCycle c = true → s.pc.toNat = 255 → memRead s.mem 255 = some 0x47 →
    ∃ t, stepWith c s = .next t ∧ t.events = s.events ++ [.print s.regs[0]] ∧ t.pc.toNat = 257 ∧ t.run = .running ∧
      (t.runsCycle c = true → stepWith c t = .next (t.sampled.errorEntry .outOfBounds 257))

/-- Rule R106: `Step()` on a MULTIPLY at `pc`; nothing but `x[0]` and the pc changes, so there is no event. -/
def Obligations.MultiplyCycle : Prop :=
  ∀ (c : Config) (s : State), memRead s.mem s.pc.toNat = some 0xA2 →
    ∃ t, cycle c s = .next t ∧ t.regs[0].toNat = s.regs[0].toNat * s.regs[1].toNat % 256 ∧
      (∀ j : Fin 8, j ≠ 0 → t.regs[j] = s.regs[j]) ∧ t.pc.toNat = s.pc.toNat + 3 ∧
      t = { s with regs := t.regs, pc := t.pc }

/-- Rule R109 (decisions D13 and D3 are the spec's own): at 253, 254 and 255 MULTIPLY is executed in full, the pc becomes
256, 257 or 258, and the next cycle raises `OutOfBounds(pc)`. -/
def Obligations.MultiplyNearTopOfMemory : Prop :=
  ∀ (c : Config) (s : State), s.runsCycle c = true → 253 ≤ s.pc.toNat → memRead s.mem s.pc.toNat = some 0xA2 →
    ∃ t, stepWith c s = .next t ∧ t.regs[0].toNat = s.regs[0].toNat * s.regs[1].toNat % 256 ∧
      t.pc.toNat = s.pc.toNat + 3 ∧ 256 ≤ t.pc.toNat ∧ t.run = .running ∧
      (t.runsCycle c = true → stepWith c t = .next (t.sampled.errorEntry .outOfBounds t.pc))

/-- Rule R110: `Step()` on a HALT at `pc`, and what the event port carries at an edge that runs it. -/
def Obligations.HaltCycle : Prop :=
  ∀ (c : Config) (s : State), memRead s.mem s.pc.toNat = some 0x01 →
    cycle c s = .next { s with events := s.events ++ [.haltNotice], run := .halted } ∧
      (s.runsCycle c = true → eventPort c s = some { kind := 1, code := 0, data := 0 })

/-- Rule R111 (derived in the spec): a `start` after a HALT executes the same HALT again; one more `HaltNotice`, no other
change. -/
def Obligations.RestartRepeatsHalt : Prop :=
  ∀ (c : Config) (s : State) (rest : List Inputs), s.run = .running → s.fault = .noFault →
    memRead s.mem s.pc.toNat = some 0x01 → s.inputs = Inputs.idle :: startInput :: Inputs.idle :: rest →
    runWith c 3 s = .next { s with
      run := .halted, events := s.events ++ [.haltNotice, .haltNotice], inputs := rest }

/-- Rules R56 and R126 under policy `halt` (decision D7 is the spec's own): an unbound opcode takes the error entry with
the opcode byte as cause; the pc keeps its address. -/
def Obligations.UnknownOpcodeHalts : Prop :=
  ∀ (c : Config) (s : State) (opcode : Byte), s.runsCycle c = true → c.policy = .halt →
    memRead s.mem s.pc.toNat = some opcode → opcode ≠ 0x01 → opcode ≠ 0x47 → opcode ≠ 0x82 → opcode ≠ 0xA2 →
    stepWith c s = .next (s.sampled.errorEntry .unknownOpcode (opcode.setWidth 9)) ∧
      eventPort c s = some { kind := 2, code := 3, data := opcode.setWidth 9 }

/-- Rule R127 under policy `skip` (decision D7 is the spec's own): the `Error` event, one byte skipped, the engine
running, the latch and everything else unchanged. -/
def Obligations.UnknownOpcodeSkips : Prop :=
  ∀ (c : Config) (s : State) (opcode : Byte), s.runsCycle c = true → c.policy = .skip →
    memRead s.mem s.pc.toNat = some opcode → opcode ≠ 0x01 → opcode ≠ 0x47 → opcode ≠ 0x82 → opcode ≠ 0xA2 →
    ∃ t, stepWith c s = .next t ∧ t.pc.toNat = s.pc.toNat + 1 ∧
      t.events = s.events ++ [.error .unknownOpcode (opcode.setWidth 9)] ∧
      t = { s.sampled with events := t.events, pc := t.pc } ∧
      eventPort c s = some { kind := 2, code := 3, data := opcode.setWidth 9 }

/-- Rule R128 (decision D14 is the spec's own): the cycle raises the first condition of the priority list that applies,
and it alone; where none applies, no `Error` event is emitted and the latch does not move. -/
def Obligations.FirstConditionIsRaised : Prop :=
  ∀ (c : Config) (s : State), s.runsCycle c = true →
    match s.firstCondition with
    | some (.unknownOpcode opcode) =>
      stepWith c s = .next
        (match c.policy with
          | .halt => s.sampled.errorEntry .unknownOpcode (opcode.setWidth 9)
          | .skip => { s.sampled with
              events := s.events ++ [.error .unknownOpcode (opcode.setWidth 9)], pc := s.pc + 1 })
    | some cond => stepWith c s = .next (s.sampled.errorEntry (conditionCode cond) (conditionInfo cond))
    | none => ∃ t, stepWith c s = .next t ∧ t.fault = s.fault ∧ t.faultInfo = s.faultInfo ∧
        (t.events = s.events ∨ t.events = s.events ++ [.haltNotice] ∨ ∃ v, t.events = s.events ++ [.print v])

/-- Commit is all or nothing (rules R80, R129): in a cycle that emits an `Error`, no register and no byte of memory
changes, and the pc stays, except one byte skipped for an unknown opcode under policy `skip`. -/
def Obligations.RaisedConditionCommitsNothing : Prop :=
  ∀ (c : Config) (s t : State) (code : FaultCode) (info : Word9), s.runsCycle c = true → stepWith c s = .next t →
    t.events = s.events ++ [.error code info] →
    t.regs = s.regs ∧ (∀ a, memRead t.mem a = memRead s.mem a) ∧
      ((t.pc = s.pc ∧ t.run = .halted ∧ t.fault = code ∧ t.faultInfo = info) ∨
        (c.policy = .skip ∧ code = .unknownOpcode ∧ t.pc = s.pc + 1 ∧ t.run = .running ∧ t.fault = s.fault ∧
          t.faultInfo = s.faultInfo))

/-- Rule R84 (derived in the spec): an edge other than a reset adds at most one event, and the event port carries it. -/
def Obligations.AtMostOneEventPerEdge : Prop :=
  ∀ (c : Config) (s t : State), s.pins.rst = false → stepWith c s = .next t →
    (t.events = s.events ∧ eventPort c s = none) ∨
      ∃ e, t.events = s.events ++ [e] ∧ eventPort c s = some (eventLines e)

/-- The operand bytes of PRINT_REGISTER and MULTIPLY, and everything behind a HALT, have no effect (rule R54; decisions
D12 and D13 are the spec's own): with any other memory that holds the same opcode at the pc, the edge differs in the
memory alone. -/
def Obligations.IgnoredBytesHaveNoEffect : Prop :=
  ∀ (c : Config) (s : State) (m : Memory) (opcode : Byte), s.runsCycle c = true →
    opcode = 0x47 ∨ opcode = 0xA2 ∨ opcode = 0x01 →
    memRead s.mem s.pc.toNat = some opcode → memRead m s.pc.toNat = some opcode →
    ∃ t, stepWith c s = .next t ∧ stepWith c { s with mem := m } = .next { t with mem := m }

/-! The host's moves (rules R73, R143). -/

/-- What reset leaves (rule R27): memory all 0x00 and HALTED are the source's; the registers (D5), the pc (D4), the latch
(D10, D11) and the event stream (D19) are the spec's own decisions; `inputs` is the model's (log entry 1). -/
def Obligations.ResetLeavesEverythingZero : Prop :=
  (∀ a, a < 256 → memRead State.reset.mem a = some 0x00) ∧ (∀ j : Fin 8, State.reset.regs[j] = 0x00) ∧
    State.reset.pc = 0 ∧ State.reset.run = .halted ∧ State.reset.fault = .noFault ∧ State.reset.faultInfo = 0 ∧
    State.reset.events = [] ∧ State.reset.inputs = []

/-- Rule R140 (decision D16 is the spec's own): an edge with `rst = 1` leaves the reset state from any state, whatever
the other inputs and whatever was running, and emits no event. -/
def Obligations.ResetHasPriority : Prop :=
  ∀ (c : Config) (s : State), s.pins.rst = true →
    stepWith c s = .next { State.reset with inputs := s.inputs.tail } ∧ eventPort c s = none

/-- Rules R44 and R46 (decisions D18 and D26 are the spec's own): while HALTED a load write lands in range; out of range
it changes nothing and is reported on `ld_err` alone. -/
def Obligations.LoadPortWhileHalted : Prop :=
  ∀ (c : Config) (s : State), s.pins.rst = false → s.run = .halted → s.pins.start = false → s.pins.ldWe = true →
    (s.pins.ldAddr.toNat < 256 → ∃ t, stepWith c s = .next t ∧
        memRead t.mem s.pins.ldAddr.toNat = some s.pins.ldData ∧
        (∀ a, a ≠ s.pins.ldAddr.toNat → memRead t.mem a = memRead s.mem a) ∧
        t = { s.sampled with mem := t.mem } ∧ (outputs c s).ldErr = false ∧ (outputs c s).event = none) ∧
      (256 ≤ s.pins.ldAddr.toNat →
        stepWith c s = .next s.sampled ∧ (outputs c s).ldErr = true ∧ (outputs c s).event = none)

/-- Rules R45 and R145 (decisions D18 and D22 are the spec's own): while RUNNING the load port and `start` are not looked
at; whatever levels stand on them, the edge is the same. -/
def Obligations.LoadAndStartIgnoredWhileRunning : Prop :=
  ∀ (c : Config) (s : State) (inp : Inputs) (rest : List Inputs) (start we : Bool) (addr : Word9) (data : Byte),
    s.run = .running → inp.rst = false → s.inputs = inp :: rest →
    stepWith c { s with inputs := { inp with start := start, ldWe := we, ldAddr := addr, ldData := data } :: rest } =
      stepWith c s

/-- Rule R144 (decisions D11 and D22 are the spec's own): `start` sets the run state and nothing else; it is ignored while
the latch is set; without it a HALTED engine stays as it is; no event. -/
def Obligations.StartOnlySetsRun : Prop :=
  ∀ (c : Config) (s : State), s.pins.rst = false → s.run = .halted → s.pins.ldWe = false →
    stepWith c s = .next
        (if s.pins.start = true ∧ s.fault = .noFault then { s.sampled with run := .running } else s.sampled) ∧
      eventPort c s = none

/-- Rule R133 (decision D17 is the spec's own): a stop request takes the place of the instruction and changes only the
run state, with no event; where the input does not exist, its level has no effect. -/
def Obligations.StopRequestReplacesInstruction : Prop :=
  (∀ (c : Config) (s : State), c.hasStopReq = true → s.pins.rst = false → s.run = .running → s.pins.stopReq = true →
      stepWith c s = .next { s.sampled with run := .halted } ∧ eventPort c s = none) ∧
    ∀ (c : Config) (s : State) (inp : Inputs) (rest : List Inputs) (stop : Bool), c.hasStopReq = false →
      s.inputs = inp :: rest → stepWith c { s with inputs := { inp with stopReq := stop } :: rest } = stepWith c s

/-- Rule R18 (decisions D7, D8, D9 and D17 are the spec's own): the run state changes only by the causes of the table. -/
def Obligations.RunStateTransitionsAreComplete : Prop :=
  ∀ (c : Config) (s t : State), stepWith c s = .next t → t.run ≠ s.run →
    s.pins.rst = true ∨
      (s.run = .halted ∧ s.pins.start = true ∧ s.fault = .noFault) ∨
      (s.run = .running ∧ memRead s.mem s.pc.toNat = some 0x01) ∨
      (s.run = .running ∧ t.events = s.events ++ [.error t.fault t.faultInfo] ∧ t.fault ≠ .noFault) ∨
      (s.run = .running ∧ c.hasStopReq = true ∧ s.pins.stopReq = true)

/-- Rules R20 and R130 (decision D11 is the spec's own): in a state of the invariant, once the latch is set, edges without
reset leave the latch, the registers, the pc and the output alone and the engine HALTED, however many there are. -/
def Obligations.LatchedFaultStaysUntilReset : Prop :=
  ∀ (c : Config) (n : Nat) (s : State), s.Inv → s.fault ≠ .noFault → (∀ inp ∈ s.inputs, inp.rst = false) →
    ∃ t, runWith c n s = .next t ∧ t.fault = s.fault ∧ t.faultInfo = s.faultInfo ∧ t.run = .halted ∧ t.regs = s.regs ∧
      t.pc = s.pc ∧ t.events = s.events

/-- Rule R134 (decision D21 is the spec's own): the observation port shows the pc, the registers, and the three cells from
the pc on, each valid exactly when its address is below 256, its data 0 otherwise. -/
def Obligations.ObservationShowsTheWindow : Prop :=
  ∀ s : State, (observe s).dbgPc = s.pc ∧ (observe s).dbgX = s.regs ∧
    (∀ b, memRead s.mem s.pc.toNat = some b → (observe s).dbgM0 = { valid := true, data := b }) ∧
    (∀ b, memRead s.mem (s.pc.toNat + 1) = some b → (observe s).dbgM1 = { valid := true, data := b }) ∧
    (∀ b, memRead s.mem (s.pc.toNat + 2) = some b → (observe s).dbgM2 = { valid := true, data := b }) ∧
    (256 ≤ s.pc.toNat → (observe s).dbgM0 = { valid := false, data := 0 }) ∧
    (256 ≤ s.pc.toNat + 1 → (observe s).dbgM1 = { valid := false, data := 0 }) ∧
    (256 ≤ s.pc.toNat + 2 → (observe s).dbgM2 = { valid := false, data := 0 })

/-- Rules R71 and R72 (decisions D10, D16 and D19 are the spec's own): the lines the output ports carry. `ld_err` is high
exactly when the load port presents a write at 256 or more while HALTED (rules R46, R71; decisions D18 and D26), so it
is low while RUNNING, where nothing is reported (rule R45), and without `ld_we`; that it is low at an edge with `rst = 1`
is the model's reading (log entry 13, DEDUCED). -/
def Obligations.PortLinesCarryTheState : Prop :=
  (∀ (c : Config) (s : State), (outputs c s).running = (if s.run = .running then 1 else 0) ∧
      (outputs c s).faultCode.toNat = codeNumber s.fault ∧ (outputs c s).faultInfo = s.faultInfo ∧
      ((outputs c s).ldErr = true ↔
        s.pins.rst = false ∧ s.run = .halted ∧ s.pins.ldWe = true ∧ 256 ≤ s.pins.ldAddr.toNat)) ∧
    (∀ v : Byte, eventLines (.print v) = { kind := 0, code := 0, data := v.setWidth 9 }) ∧
    eventLines .haltNotice = { kind := 1, code := 0, data := 0 } ∧
    ∀ (code : FaultCode) (info : Word9),
      (eventLines (.error code info)).kind = 2 ∧ (eventLines (.error code info)).code.toNat = codeNumber code ∧
        (eventLines (.error code info)).data = info

/-! Rules about the whole machine. -/

/-- Every state has a next state, and so has every instruction in every state (rules R73, R81): nothing faults, nothing
is refused. -/
def Obligations.EverythingCompletes : Prop :=
  (∀ (c : Config) (s : State), ∃ t, stepWith c s = .next t) ∧ ∀ (i : Instr) (s : State), ∃ t, exec i s = .next t

/-- The invariant holds after reset (rules R20, R21, R27). -/
def Obligations.InvariantAtReset : Prop := State.reset.Inv

/-- Every edge keeps the invariant, whatever the host does and under every configuration: memory canonical (log entry 5),
the pc at most 258 (rule R14), the latched cause legal (rules R20, R21), `UnsupportedAluOperation` never latched (rule
R104), a faulted engine HALTED with its report the last event (rules R126, R130). -/
def Obligations.EveryEdgeKeepsInvariant : Prop :=
  ∀ (c : Config) (s t : State), s.Inv → stepWith c s = .next t → t.Inv

/-- Only the load port and reset change memory (rules R10, R41, R93; derived in the spec). -/
def Obligations.MemoryChangesOnlyByHost : Prop :=
  ∀ (c : Config) (s t : State) (a : Nat), stepWith c s = .next t → memRead t.mem a ≠ memRead s.mem a →
    s.pins.rst = true ∨ (s.run = .halted ∧ s.pins.ldWe = true ∧ s.pins.ldAddr.toNat = a)

/-- Only MULTIPLY (register 0), LOAD_IMMEDIATE (the register its operand names) and reset change a register (rule R12). -/
def Obligations.RegistersChangeOnlyByTwoInstructions : Prop :=
  ∀ (c : Config) (s t : State) (j : Fin 8), stepWith c s = .next t → t.regs[j] ≠ s.regs[j] →
    s.pins.rst = true ∨
      (s.runsCycle c = true ∧ memRead s.mem s.pc.toNat = some 0xA2 ∧ j = 0) ∨
      (s.runsCycle c = true ∧ memRead s.mem s.pc.toNat = some 0x82 ∧
        memRead s.mem (s.pc.toNat + 1) = some (BitVec.ofNat 8 j.val))

/-- Within one run the pc never decreases, moves by at most 3, and grows at every edge after which the engine still runs,
so that no address is fetched twice as an opcode (rule R82; derived in the spec). -/
def Obligations.PcNeverDecreases : Prop :=
  ∀ (c : Config) (s t : State), s.pins.rst = false → stepWith c s = .next t →
    s.pc.toNat ≤ t.pc.toNat ∧ t.pc.toNat ≤ s.pc.toNat + 3 ∧
      (s.run = .running → t.run = .running → s.pc.toNat < t.pc.toNat)

/-- Each edge while RUNNING without a stop request halts the engine, or runs on with the pc moved by at least 2 under
`halt` and at least 1 under `skip`; with the pc at 256 or more it halts (rule R150; derived in the spec). -/
def Obligations.EachCycleHaltsOrAdvances : Prop :=
  ∀ (c : Config) (s : State), s.runsCycle c = true →
    ∃ t, stepWith c s = .next t ∧
      (t.run = .halted ∨
        (t.run = .running ∧ s.pc.toNat < 256 ∧
          s.pc.toNat + (match c.policy with | .halt => 2 | .skip => 1) ≤ t.pc.toNat))

/-- Rule R149: an edge that ends a run leaves a normal end and adds `HaltNotice`, or leaves a faulted end and adds the
`Error` of the latch, or (only with the stop input) leaves the latch clear and adds no event. No edge meets two of the
three, since they differ in the event the edge adds. -/
def Obligations.RunEndsInOneOfThreeWays : Prop :=
  ∀ (c : Config) (s t : State), s.Inv → s.pins.rst = false → s.run = .running → stepWith c s = .next t → t.run = .halted →
    (t.normalEnd ∧ t.events = s.events ++ [.haltNotice]) ∨
      (t.faultedEnd ∧ t.events = s.events ++ [.error t.fault t.faultInfo]) ∨
      (c.hasStopReq = true ∧ s.pins.stopReq = true ∧ t.fault = .noFault ∧ t.events = s.events ∧ t.pc = s.pc)

/-- Rule R150 (derived in the spec): with no further host input a run from `pc = 0` ends within 129 edges under `halt` and
257 under `skip`, whatever memory holds. -/
def Obligations.EveryRunEnds : Prop :=
  ∀ (c : Config) (s : State), s.run = .running → s.pc = 0 → s.inputs = [] →
    ∃ n t, n ≤ (match c.policy with | .halt => 129 | .skip => 257) ∧ runWith c n s = .next t ∧ t.run = .halted

/-- Rule R97 (derived in the spec): `x[2]` to `x[7]` never reach the event stream. Two states that differ in those
registers alone still do so after any number of edges, so that their events, memories, pcs, run states, latches and
`x[0]`, `x[1]` are equal. The observation port does show these registers (rule R134); this says nothing of it. -/
def Obligations.UpperRegistersNeverReachTheEvents : Prop :=
  ∀ (c : Config) (n : Nat) (s t : State), sameButUpperRegs s t →
    ∃ s' t', runWith c n s = .next s' ∧ runWith c n t = .next t' ∧ sameButUpperRegs s' t'

/-- Rules R47, R142 and R151 (derived in the spec): from any state whatever, the boot sequence of a program of at most 256
bytes leaves the launch state: the program from address 0, every other cell 0x00, registers and pc 0, RUNNING, the
latch clear, no events. A longer program is refused (rule R46, decision D26). -/
def Obligations.BootReachesLaunchState : Prop :=
  (∀ program : List Byte, 256 < program.length → bootInputs program = none) ∧
  ∀ (c : Config) (s : State) (program : List Byte) (ins rest : List Inputs), bootInputs program = some ins →
    s.inputs = ins ++ rest →
    ∃ t, runWith c ins.length s = .next t ∧
      (∀ a, a < program.length → memRead t.mem a = program[a]?) ∧
      (∀ a, program.length ≤ a → a < 256 → memRead t.mem a = some 0x00) ∧
      t = { State.reset with mem := t.mem, run := .running, inputs := rest }

/-- Rule R81: the machine's cycle is the spec's listing of `Step()`, line by line, over exact numbers, in every state; in
particular it is total and a function of the state and the parameters. That it leaves `inputs` alone is no part of the
rule: the field is the model's (log entry 1). -/
def Obligations.CycleRefinesStepListing : Prop :=
  ∀ (c : Config) (s : State), ∃ t, cycle c s = .next t ∧ t.view = s.view.step c.policy ∧ t.inputs = s.inputs

/-- Rule R73 (decision D25 is the spec's own): a clock edge is the spec's case analysis of it, line by line, for every
combination of inputs and parameters, in every state. That the levels are those of `s.pins` and that the edge drops them
from `inputs` is the model's choice (log entry 1). -/
def Obligations.EdgeRefinesCaseAnalysis : Prop :=
  ∀ (c : Config) (s : State), ∃ t, stepWith c s = .next t ∧ t.view = s.view.edge c s.pins ∧ t.inputs = s.inputs.tail

/-- The loader's text, which rule R3 puts outside the hardware (rules R62, R64): a line that is the eight binary digits of
a byte, most significant bit first, with or without a comment behind it, is that byte; the worked example of rule R64,
whose malformed line is skipped (the lenient policy, log entry 17). -/
def Obligations.EightDigitLineIsItsByte : Prop :=
  (∀ (b : Byte) (comment : List Char),
      let digits := [7, 6, 5, 4, 3, 2, 1, 0].map fun k => if b.getLsbD k then '1' else '0'
      loaderLine digits = some b ∧ loaderLine (digits ++ ' ' :: '#' :: comment) = some b) ∧
    loaderBytes ["10000010 # comment".toList, "".toList, "not binary".toList, "00000001".toList] = [0x82, 0x01]
end

