-- ==== Sys2Proof/Laws/Memory.lean ====
section
/-!
SUPPORT. The memory operations keep the canonical form, and what each of them can do (rules R30 to R33).
-/
namespace Sys2Proof.Machine

/-- A canonical list from a higher address on is one from a lower address on. -/
theorem Memory.wfFrom_mono {lo hi : Nat} (h : lo ≤ hi) {m : Memory} (hm : Memory.wfFrom hi m = true) :
    Memory.wfFrom lo m = true := by
  cases m with
  | nil => rfl
  | cons cell rest =>
    simp only [Memory.wfFrom, Bool.and_eq_true, decide_eq_true_eq] at hm ⊢
    exact ⟨⟨⟨by omega, hm.1.1.2⟩, hm.1.2⟩, hm.2⟩

/-- Leaving cells out keeps the canonical form. -/
theorem Memory.wfFrom_filter (p : Host.Cell → Bool) {m : Memory} {lo : Nat} (hm : Memory.wfFrom lo m = true) :
    Memory.wfFrom lo (m.filter p) = true := by
  induction m generalizing lo with
  | nil => rfl
  | cons cell rest ih =>
    simp only [Memory.wfFrom, Bool.and_eq_true, decide_eq_true_eq] at hm
    by_cases hp : p cell = true
    · simp only [List.filter_cons_of_pos hp, Memory.wfFrom, Bool.and_eq_true, decide_eq_true_eq]
      exact ⟨hm.1, ih hm.2⟩
    · rw [List.filter_cons_of_neg hp]
      exact Memory.wfFrom_mono (by omega) (ih hm.2)

/-- Putting a cell at an address the list does not name keeps the canonical form. -/
theorem Memory.wfFrom_insertCell {a : Nat} {v : Byte} (ha : a < Config.memSize) (hv : v ≠ Memory.fill) {m : Memory} {lo : Nat}
    (hlo : lo ≤ a) (hm : Memory.wfFrom lo m = true) (hfree : ∀ cell ∈ m, cell.1 ≠ a) :
    Memory.wfFrom lo (Memory.insertCell a v m) = true := by
  induction m generalizing lo with
  | nil => simp [Memory.insertCell, Memory.wfFrom, hlo, ha, hv]
  | cons cell rest ih =>
    obtain ⟨b, w⟩ := cell
    have hne : b ≠ a := hfree (b, w) (by simp)
    simp only [Memory.wfFrom, Bool.and_eq_true, decide_eq_true_eq] at hm
    by_cases hab : a < b
    · simp only [Memory.insertCell, hab, if_true, Memory.wfFrom, Bool.and_eq_true, decide_eq_true_eq, bne_iff_ne]
      exact ⟨⟨⟨hlo, ha⟩, hv⟩, ⟨⟨by omega, hm.1.1.2⟩, by simpa using hm.1.2⟩, hm.2⟩
    · simp only [Memory.insertCell, hab, if_false, Memory.wfFrom, Bool.and_eq_true, decide_eq_true_eq]
      exact ⟨hm.1, ih (by omega) hm.2 fun c hc => hfree c (by simp [hc])⟩

/-- A write below `MEM_SIZE` keeps the canonical form. -/
theorem Memory.wf_set {m : Memory} (hm : Memory.wf m = true) {a : Nat} (ha : a < Config.memSize) (v : Byte) :
    Memory.wf (Memory.set m a v) = true := by
  unfold Memory.set
  by_cases hv : v = Memory.fill
  · simp only [hv, if_true]
    exact Memory.wfFrom_filter _ hm
  · simp only [hv, if_false]
    exact Memory.wfFrom_insertCell ha hv (Nat.zero_le a) (Memory.wfFrom_filter _ hm) fun c hc => by
      simpa using (List.mem_filter.mp hc).2

/-- A write through the range check keeps the canonical form. -/
theorem memWrite_wf {m m' : Memory} {a : Nat} {v : Byte} (hm : Memory.wf m = true) (h : memWrite m a v = some m') :
    Memory.wf m' = true := by
  unfold memWrite at h
  split at h
  · cases h; exact Memory.wf_set hm ‹_› v
  · cases h

/-- Storing bytes that end within memory keeps the canonical form. -/
theorem Memory.wf_setBytes {bytes : List Byte} {m : Memory} {a : Nat} (hm : Memory.wf m = true)
    (ha : a + bytes.length ≤ Config.memSize) : Memory.wf (Memory.setBytes m a bytes) = true := by
  induction bytes generalizing m a with
  | nil => exact hm
  | cons b rest ih =>
    simp only [List.length_cons] at ha
    exact ih (Memory.wf_set hm (by omega) b) (by omega)

/-- Reset memory is canonical. -/
theorem State.reset_mem_wf : Memory.wf State.reset.mem = true := rfl

/-- What `MemRead` answers. -/
theorem memRead_cases (m : Memory) (a : Nat) :
    (a < 256 ∧ memRead m a = some (Memory.read m a)) ∨ (256 ≤ a ∧ memRead m a = none) := by
  by_cases h : a < 256
  · exact .inl ⟨h, if_pos h⟩
  · exact .inr ⟨by omega, if_neg h⟩

/-- What `MemWrite` answers. -/
theorem memWrite_cases (m : Memory) (a : Nat) (v : Byte) :
    (a < 256 ∧ memWrite m a v = some (Memory.set m a v)) ∨ (256 ≤ a ∧ memWrite m a v = none) := by
  by_cases h : a < 256
  · exact .inl ⟨h, if_pos h⟩
  · exact .inr ⟨by omega, if_neg h⟩

end Sys2Proof.Machine
end

