-- ==== Sys2Proof/Laws/State.lean ====
section
/-!
SUPPORT. What each field holds after each update of the state: one lemma per field per update, true by unfolding the
update once, so that no later proof unfolds it.
-/
namespace Sys2Proof.Machine

section writeReg
variable (s : State) (i : Fin 8) (v : Byte)

@[simp] theorem State.writeReg_mem : (s.writeReg i v).mem = s.mem := rfl
@[simp] theorem State.writeReg_regs : (s.writeReg i v).regs = s.regs.set i v := rfl
@[simp] theorem State.writeReg_pc : (s.writeReg i v).pc = s.pc := rfl
@[simp] theorem State.writeReg_run : (s.writeReg i v).run = s.run := rfl
@[simp] theorem State.writeReg_fault : (s.writeReg i v).fault = s.fault := rfl
@[simp] theorem State.writeReg_faultInfo : (s.writeReg i v).faultInfo = s.faultInfo := rfl
@[simp] theorem State.writeReg_events : (s.writeReg i v).events = s.events := rfl
@[simp] theorem State.writeReg_inputs : (s.writeReg i v).inputs = s.inputs := rfl

end writeReg

section advance
variable (s : State) (len : Nat)

@[simp] theorem State.advance_mem : (s.advance len).mem = s.mem := rfl
@[simp] theorem State.advance_regs : (s.advance len).regs = s.regs := rfl
@[simp] theorem State.advance_pc : (s.advance len).pc = s.pc + BitVec.ofNat 9 len := rfl
@[simp] theorem State.advance_run : (s.advance len).run = s.run := rfl
@[simp] theorem State.advance_fault : (s.advance len).fault = s.fault := rfl
@[simp] theorem State.advance_faultInfo : (s.advance len).faultInfo = s.faultInfo := rfl
@[simp] theorem State.advance_events : (s.advance len).events = s.events := rfl
@[simp] theorem State.advance_inputs : (s.advance len).inputs = s.inputs := rfl

end advance

section emit
variable (s : State) (e : Event)

@[simp] theorem State.emit_mem : (s.emit e).mem = s.mem := rfl
@[simp] theorem State.emit_regs : (s.emit e).regs = s.regs := rfl
@[simp] theorem State.emit_pc : (s.emit e).pc = s.pc := rfl
@[simp] theorem State.emit_run : (s.emit e).run = s.run := rfl
@[simp] theorem State.emit_fault : (s.emit e).fault = s.fault := rfl
@[simp] theorem State.emit_faultInfo : (s.emit e).faultInfo = s.faultInfo := rfl
@[simp] theorem State.emit_events : (s.emit e).events = s.events ++ [e] := rfl
@[simp] theorem State.emit_inputs : (s.emit e).inputs = s.inputs := rfl

end emit

section setRun
variable (s : State) (r : RunState)

@[simp] theorem State.setRun_mem : (s.setRun r).mem = s.mem := rfl
@[simp] theorem State.setRun_regs : (s.setRun r).regs = s.regs := rfl
@[simp] theorem State.setRun_pc : (s.setRun r).pc = s.pc := rfl
@[simp] theorem State.setRun_run : (s.setRun r).run = r := rfl
@[simp] theorem State.setRun_fault : (s.setRun r).fault = s.fault := rfl
@[simp] theorem State.setRun_faultInfo : (s.setRun r).faultInfo = s.faultInfo := rfl
@[simp] theorem State.setRun_events : (s.setRun r).events = s.events := rfl
@[simp] theorem State.setRun_inputs : (s.setRun r).inputs = s.inputs := rfl

end setRun

section raise
variable (s : State) (cond : Condition)

@[simp] theorem State.raise_mem : (s.raise cond).mem = s.mem := rfl
@[simp] theorem State.raise_regs : (s.raise cond).regs = s.regs := rfl
@[simp] theorem State.raise_pc : (s.raise cond).pc = s.pc := rfl
@[simp] theorem State.raise_run : (s.raise cond).run = .halted := rfl
@[simp] theorem State.raise_fault : (s.raise cond).fault = conditionCode cond := rfl
@[simp] theorem State.raise_faultInfo : (s.raise cond).faultInfo = conditionInfo cond := rfl
@[simp] theorem State.raise_events : (s.raise cond).events = s.events ++ [conditionEvent cond] := rfl
@[simp] theorem State.raise_inputs : (s.raise cond).inputs = s.inputs := rfl

end raise

section raiseSkip
variable (s : State) (cond : Condition)

@[simp] theorem State.raiseSkip_mem : (s.raiseSkip cond).mem = s.mem := rfl
@[simp] theorem State.raiseSkip_regs : (s.raiseSkip cond).regs = s.regs := rfl
@[simp] theorem State.raiseSkip_pc : (s.raiseSkip cond).pc = s.pc + 1 := rfl
@[simp] theorem State.raiseSkip_run : (s.raiseSkip cond).run = s.run := rfl
@[simp] theorem State.raiseSkip_fault : (s.raiseSkip cond).fault = s.fault := rfl
@[simp] theorem State.raiseSkip_faultInfo : (s.raiseSkip cond).faultInfo = s.faultInfo := rfl
@[simp] theorem State.raiseSkip_events : (s.raiseSkip cond).events = s.events ++ [conditionEvent cond] := rfl
@[simp] theorem State.raiseSkip_inputs : (s.raiseSkip cond).inputs = s.inputs := rfl

end raiseSkip

section resetEdge
variable (s : State)

@[simp] theorem State.resetEdge_mem : (s.resetEdge).mem = [] := rfl
@[simp] theorem State.resetEdge_regs : (s.resetEdge).regs = Vector.replicate 8 0 := rfl
@[simp] theorem State.resetEdge_pc : (s.resetEdge).pc = 0 := rfl
@[simp] theorem State.resetEdge_run : (s.resetEdge).run = .halted := rfl
@[simp] theorem State.resetEdge_fault : (s.resetEdge).fault = .noFault := rfl
@[simp] theorem State.resetEdge_faultInfo : (s.resetEdge).faultInfo = 0 := rfl
@[simp] theorem State.resetEdge_events : (s.resetEdge).events = [] := rfl
@[simp] theorem State.resetEdge_inputs : (s.resetEdge).inputs = s.inputs := rfl

end resetEdge

section sampled
variable (s : State)

@[simp] theorem State.sampled_mem : (s.sampled).mem = s.mem := rfl
@[simp] theorem State.sampled_regs : (s.sampled).regs = s.regs := rfl
@[simp] theorem State.sampled_pc : (s.sampled).pc = s.pc := rfl
@[simp] theorem State.sampled_run : (s.sampled).run = s.run := rfl
@[simp] theorem State.sampled_fault : (s.sampled).fault = s.fault := rfl
@[simp] theorem State.sampled_faultInfo : (s.sampled).faultInfo = s.faultInfo := rfl
@[simp] theorem State.sampled_events : (s.sampled).events = s.events := rfl
@[simp] theorem State.sampled_inputs : (s.sampled).inputs = s.inputs.tail := rfl

end sampled

end Sys2Proof.Machine
end

