-- ==== Sys2Proof/Laws/Cycle.lean ====
section
/-!
SUPPORT. What each shared operation and each stage of a clock edge can do, said once: the operands (rule R13), the ALU
(rules R100 to R104), the host's moves (rules R44, R144), the fetch window (rules R74, R75), `Step()` (rule R81) and the
edge (rule R73).
-/
namespace Sys2Proof.Machine

/-- A register index is the whole byte when it is 0 to 7, and invalid otherwise (rule R13). -/
theorem regIndex_cases (op1 : Byte) :
    (∃ i : Fin 8, i.val = op1.toNat ∧ regIndex op1 = some i) ∨ (8 ≤ op1.toNat ∧ regIndex op1 = none) := by
  by_cases h : op1.toNat < 8
  · exact .inl ⟨⟨op1.toNat, h⟩, rfl, dif_pos h⟩
  · exact .inr ⟨by omega, dif_neg h⟩

/-- An implemented tag writes the destination (rule R100). -/
theorem State.aluCycle_of_op (s : State) {tag : BitVec 2} {op : AluOp} (h : aluOp tag = some op) (d src : Fin 8) (len : Nat) :
    s.aluCycle tag d src len = (s.writeReg d (aluResult op (s.readReg d) (s.readReg src))).advance len := by
  simp [State.aluCycle, State.aluApply, alu, h]

/-- An unsupported tag takes the error entry (rule R104). -/
theorem State.aluCycle_of_unsupported (s : State) {tag : BitVec 2} (h : aluOp tag = none) (d src : Fin 8) (len : Nat) :
    s.aluCycle tag d src len = s.raise (.unsupportedAluOperation tag) := by
  simp [State.aluCycle, State.aluApply, alu, h]

/-- What an unknown opcode does under each policy (rule R122). -/
theorem State.raiseUnknownOpcode_cases (c : Config) (s : State) (opcode : Byte) :
    (c.policy = .halt ∧ s.raiseUnknownOpcode c opcode = s.raise (.unknownOpcode opcode)) ∨
      (c.policy = .skip ∧ s.raiseUnknownOpcode c opcode = s.raiseSkip (.unknownOpcode opcode)) := by
  unfold State.raiseUnknownOpcode
  cases c.policy <;> simp

/-- The load port changes memory at one in-range address, or nothing (rules R44, R46). -/
theorem State.loadPort_cases (s : State) (inp : Inputs) :
    (inp.ldWe = true ∧ inp.ldAddr.toNat < 256 ∧
        s.loadPort inp = { s with mem := Memory.set s.mem inp.ldAddr.toNat inp.ldData }) ∨
      ((inp.ldWe = false ∨ 256 ≤ inp.ldAddr.toNat) ∧ s.loadPort inp = s) := by
  unfold State.loadPort
  cases hw : inp.ldWe with
  | false => exact .inr ⟨.inl rfl, by simp⟩
  | true =>
    rcases memWrite_cases s.mem inp.ldAddr.toNat inp.ldData with ⟨ha, hm⟩ | ⟨ha, hm⟩
    · exact .inl ⟨rfl, ha, by simp [hm]⟩
    · exact .inr ⟨.inr ha, by simp [hm]⟩

/-- `start` sets the run state of an engine without a latched fault, or does nothing (rule R144). -/
theorem State.startPort_cases (s : State) (inp : Inputs) :
    (inp.start = true ∧ s.fault = .noFault ∧ s.startPort inp = s.setRun .running) ∨
      ((inp.start = false ∨ s.fault ≠ .noFault) ∧ s.startPort inp = s) := by
  unfold State.startPort
  by_cases h : inp.start = true ∧ s.fault = .noFault
  · exact .inl ⟨h.1, h.2, if_pos h⟩
  · refine .inr ⟨?_, if_neg h⟩
    by_cases hs : inp.start = true
    · exact .inr fun hf => h ⟨hs, hf⟩
    · exact .inl (by simpa using hs)

/-- Outside memory the fetch window is empty (rule R74). -/
theorem State.window_outside {s : State} (h : 256 ≤ s.pc.toNat) : s.window = [] := by
  have h0 : ¬ s.pc.toNat < 256 := by omega
  have h1 : ¬ s.pc.toNat + 1 < 256 := by omega
  have h2 : ¬ s.pc.toNat + 2 < 256 := by omega
  simp [State.window, memRead, h0, h1, h2]

/-- At the last address it holds the opcode alone (rule R75). -/
theorem State.window_255 {s : State} (h : s.pc.toNat = 255) : s.window = [Memory.read s.mem s.pc.toNat] := by
  simp [State.window, memRead, h, Config.memSize]

/-- One address earlier it holds two bytes (rule R75). -/
theorem State.window_254 {s : State} (h : s.pc.toNat = 254) :
    s.window = [Memory.read s.mem s.pc.toNat, Memory.read s.mem (s.pc.toNat + 1)] := by
  simp [State.window, memRead, h, Config.memSize]

/-- Elsewhere it holds three bytes (rule R75). -/
theorem State.window_inside {s : State} (h : s.pc.toNat < 254) :
    s.window = [Memory.read s.mem s.pc.toNat, Memory.read s.mem (s.pc.toNat + 1), Memory.read s.mem (s.pc.toNat + 2)] := by
  have h0 : s.pc.toNat < 256 := by omega
  have h1 : s.pc.toNat + 1 < 256 := by omega
  have h2 : s.pc.toNat + 2 < 256 := by omega
  simp [State.window, memRead, h0, h1, h2]

/-- Inside memory the first byte of the window is the one at the pc (rule R74), and its second and third are the operand
bytes that have a cell (rule R75). -/
theorem State.window_cons {s : State} (h : s.pc.toNat < 256) :
    ∃ rest, s.window = Memory.read s.mem s.pc.toNat :: rest ∧ rest[0]? = memRead s.mem (s.pc.toNat + 1) ∧
      rest[1]? = memRead s.mem (s.pc.toNat + 2) := by
  by_cases h5 : s.pc.toNat = 255
  · exact ⟨_, State.window_255 h5, by simp [memRead, h5, Config.memSize], by simp [memRead, h5, Config.memSize]⟩
  by_cases h4 : s.pc.toNat = 254
  · exact ⟨_, State.window_254 h4, by simp [memRead, h4, Config.memSize], by simp [memRead, h4, Config.memSize]⟩
  · have h1 : s.pc.toNat + 1 < 256 := by omega
    have h2 : s.pc.toNat + 2 < 256 := by omega
    exact ⟨_, State.window_inside (by omega), by simp [memRead, h1], by simp [memRead, h2]⟩

/-- Sampling the inputs does not change what is fetched. -/
@[simp] theorem State.window_sampled (s : State) : s.sampled.window = s.window := rfl

/-- What `Step()` can do (rule R81): raise `OutOfBounds(pc)`, raise `UnknownOpcode`, or run the instruction at the pc. -/
theorem cycle_cases (c : Config) (s : State) :
    (256 ≤ s.pc.toNat ∧ cycle c s = .next (s.raise (.outOfBounds s.pc))) ∨
      (s.pc.toNat < 256 ∧ lookup (Memory.read s.mem s.pc.toNat) = none ∧
        cycle c s = .next (s.raiseUnknownOpcode c (Memory.read s.mem s.pc.toNat))) ∨
      (s.pc.toNat < 256 ∧ ∃ h rest i tail, lookup (Memory.read s.mem s.pc.toNat) = some h ∧
        s.window = Memory.read s.mem s.pc.toNat :: rest ∧ decodeOperands h rest = .instr i tail ∧
        cycle c s = exec i s) := by
  by_cases hpc : 256 ≤ s.pc.toNat
  · exact .inl ⟨hpc, by simp [cycle, State.window_outside hpc, decode]⟩
  · have hlt : s.pc.toNat < 256 := by omega
    obtain ⟨rest, hw, -, -⟩ := State.window_cons hlt
    cases hl : lookup (Memory.read s.mem s.pc.toNat) with
    | none => exact .inr (.inl ⟨hlt, rfl, by simp [cycle, hw, decode, hl]⟩)
    | some h =>
      refine .inr (.inr ⟨hlt, h, rest, ?_⟩)
      cases h <;> exact ⟨_, _, rfl, hw, rfl, by simp [cycle, hw, decode, hl, decodeOperands]⟩

/-- What a clock edge can do (rule R73). -/
theorem clockEdge_cases (c : Config) (inp : Inputs) (s : State) :
    (inp.rst = true ∧ clockEdge c inp s = .next s.resetEdge) ∨
      (inp.rst = false ∧ s.run = .halted ∧ clockEdge c inp s = .next ((s.loadPort inp).startPort inp)) ∨
      (inp.rst = false ∧ s.run = .running ∧ c.hasStopReq = true ∧ inp.stopReq = true ∧
        clockEdge c inp s = .next (s.setRun .halted)) ∨
      (inp.rst = false ∧ s.run = .running ∧ (c.hasStopReq && inp.stopReq) = false ∧ clockEdge c inp s = cycle c s) := by
  unfold clockEdge
  cases inp.rst <;> cases s.run <;> cases c.hasStopReq <;> cases inp.stopReq <;> simp

end Sys2Proof.Machine
end

