-- ==== Sys2Proof/Laws/PerInstr.lean ====
section
/-!
SUPPORT. Statements made once for every instruction, one lemma per constructor.
-/
namespace Sys2Proof.Laws.EncodedLength

/-- An instruction whose bytes are all in memory is encoded in exactly its total length (rule R50). -/
def Statement (i : Instr) : Prop := i.whole = true → (encode i).length = i.length

theorem halt : Statement .halt := fun _ => rfl

theorem printRegister (ign1 : Operand) : Statement (.printRegister ign1) := by
  cases ign1 <;> simp [Statement, Instr.whole, encode, Instr.length]

theorem loadImmediate (reg imm : Operand) : Statement (.loadImmediate reg imm) := by
  cases reg <;> cases imm <;> simp [Statement, Instr.whole, encode, Instr.length]

theorem multiply (ign1 ign2 : Operand) : Statement (.multiply ign1 ign2) := by
  cases ign1 <;> cases ign2 <;> simp [Statement, Instr.whole, encode, Instr.length]

end Sys2Proof.Laws.EncodedLength
end

