-- ==== Sys2Proof/Tests/Slice0.lean ====
section
/-!
SUPPORT. Tests of the model, their expected results taken from spec/95_test_vectors.md (V1 to V38, H1, H2, table A of
section 2.4, section 2.9), and for every statement with hypotheses a concrete state that meets them.
-/
namespace Sys2Proof.Tests
open Sys2Proof.Machine

/-- A RUNNING engine at `pc` with the given cells and registers, and nothing driven by the host. -/
def engine (pc : Word9) (mem : Memory) (regs : Vector Byte 8 := #v[1, 2, 3, 4, 5, 6, 7, 8]) : State :=
  { State.reset with mem := mem, regs := regs, pc := pc, run := .running }

/-- The same engine HALTED, with what the host drives at the coming edges. -/
def halted (inputs : List Inputs) (fault : FaultCode := .noFault) : State :=
  { State.reset with inputs := inputs, fault := fault }

/-- Registers, pc, run state and events after an outcome that is a next state. -/
def summary (o : Host.Outcome State Fault Refusal) : Option (List Byte × Word9 × RunState × List Event) :=
  match o with
  | .next t => some (t.regs.toList, t.pc, t.run, t.events)
  | .fault _ => none
  | .refused _ => none

/-- The latch after an outcome that is a next state. -/
def latch (o : Host.Outcome State Fault Refusal) : Option (FaultCode × Word9) :=
  match o with
  | .next t => some (t.fault, t.faultInfo)
  | .fault _ => none
  | .refused _ => none

/-- The policy `skip`, and the stop input present. -/
def skipping : Config := { policy := .skip, hasStopReq := false }
def stoppable : Config := { policy := .halt, hasStopReq := true }

/-! Well-formedness: an ill-formed term for each check. -/

theorem test_wf_refuses_load_with_hole : (Instr.loadImmediate none (some 5)).wellFormed = false := by decide
theorem test_wf_refuses_multiply_with_hole : (Instr.multiply none (some 5)).wellFormed = false := by decide
theorem test_wf_accepts_cut_off : (Instr.multiply (some 0) none).wellFormed = true := by decide

/-! Decoding: words written out bit by bit from rules R51 and R55. -/

theorem test_decode_halt : decode [0b00000001] = .instr .halt [] := by decide
theorem test_decode_print : decode [0b01000111, 0b00000010] = .instr (.printRegister (some 2)) [] := by decide
theorem test_decode_load : decode [0b10000010, 0b00000111, 0b11111111] = .instr (.loadImmediate (some 7) (some 255)) [] := by
  decide
theorem test_decode_multiply : decode [0b10100010, 0b01000111, 0b00000001] = .instr (.multiply (some 0x47) (some 1)) [] := by
  decide
theorem test_decode_unbound : decode [0b10100000] = .unknownOpcode 0xA0 ∧ decode [0x00] = .unknownOpcode 0x00 := by decide
theorem test_table_word_load : decodeTableWord 24 0x090182 = some (.loadImmediate (some 1) (some 9)) := by decide
theorem test_table_word_halt : decodeTableWord 8 0x01 = some .halt := by decide

/-! LOAD_IMMEDIATE: V2, V8 (an invalid index byte outranked by operand 2 outside memory). -/

theorem test_load_V2 : summary (step (engine 0 [(0, 0x82), (1, 0x07), (2, 0xFF)])) =
    some ([1, 2, 3, 4, 5, 6, 7, 255], 3, .running, []) := by decide
theorem test_load_V8 : latch (step (engine 254 [(254, 0x82), (255, 0x09)])) = some (.outOfBounds, 256) := by decide

/-! PRINT_REGISTER: V12, V13. -/

theorem test_print_V12 : summary (step (engine 4 [(4, 0x47), (5, 0x02)] #v[0, 2, 77, 4, 5, 6, 7, 8])) =
    some ([0, 2, 77, 4, 5, 6, 7, 8], 6, .running, [.print 0]) := by decide
theorem test_print_V13 : summary (step (engine 255 [(255, 0x47)] #v[13, 2, 3, 4, 5, 6, 7, 8])) =
    some ([13, 2, 3, 4, 5, 6, 7, 8], 257, .running, [.print 13]) := by decide

/-! MULTIPLY: V23, V27. -/

theorem test_multiply_V23 : summary (step (engine 0 [(0, 0xA2), (1, 0x05), (2, 0x06)] #v[2, 3, 9, 9, 9, 100, 200, 9])) =
    some ([6, 3, 9, 9, 9, 100, 200, 9], 3, .running, []) := by decide
theorem test_multiply_V27 : summary (step (engine 255 [(255, 0xA2)] #v[3, 5, 0, 0, 0, 0, 0, 0])) =
    some ([15, 5, 0, 0, 0, 0, 0, 0], 258, .running, []) := by decide

/-! HALT: V29. -/

theorem test_halt_V29 : summary (step (engine 255 [(255, 0x01)])) =
    some ([1, 2, 3, 4, 5, 6, 7, 8], 255, .halted, [.haltNotice]) := by decide

/-! Unknown opcodes and the fetch: V32, V34, V36. -/

theorem test_unknown_V32 : latch (step (engine 5 [(5, 0xA0)])) = some (.unknownOpcode, 160) := by decide
theorem test_unknown_V34 : summary (stepWith skipping (engine 255 [(255, 0xFF)])) =
    some ([1, 2, 3, 4, 5, 6, 7, 8], 256, .running, [.error .unknownOpcode 255]) := by decide
theorem test_fetch_V36 : latch (step (engine 258 [])) = some (.outOfBounds, 258) := by decide

/-! The ALU alone: table A of section 2.4. -/

theorem test_alu_table : alu 0 200 100 = some 44 ∧ alu 1 5 10 = some 251 ∧ alu 2 255 255 = some 1 ∧ alu 3 1 1 = none := by
  decide

/-! The host: H1 edge 5 (a load write and `start` at one edge), H2 rows a and d. -/

theorem test_load_and_start_H1 :
    step (halted [{ loadInput 3 0x01 with start := true }]) =
      .next { State.reset with mem := [(3, 0x01)], run := .running } := by rfl
theorem test_load_refused_H2a : (outputs Config.standard (halted [loadInput 256 0x55])).ldErr = true ∧
    step (halted [loadInput 256 0x55]) = .next State.reset := ⟨by decide, by rfl⟩
/-- H2 row b, an address in range, no write, and an edge with reset (log entry 13): `ld_err` stays low. -/
theorem test_load_err_low :
    (outputs Config.standard { engine 0 [] with inputs := [loadInput 256 0x01] }).ldErr = false ∧
      (outputs Config.standard (halted [loadInput 255 0x55])).ldErr = false ∧
      (outputs Config.standard (halted [{ loadInput 256 0x55 with ldWe := false }])).ldErr = false ∧
      (outputs Config.standard (halted [{ loadInput 256 0x55 with rst := true }])).ldErr = false := by decide
theorem test_start_refused_H2d : (summary (step (halted [startInput] .unknownOpcode))).map (·.2.2.1) = some .halted := by
  decide

/-! The observation port: the fourth row of section 2.9. -/

theorem test_observe_255 : (observe (engine 255 [(255, 0x47)])).dbgM0 = { valid := true, data := 0x47 } ∧
    (observe (engine 255 [(255, 0x47)])).dbgM1.valid = false := by decide

/-! The hypotheses of the statements can be met. -/

theorem witness_LengthDependsOnOpcodeAlone :
    lookup 0xA2 = some .multiply ∧ handlerLength .multiply ≤ ([1, 2] : List Byte).length + 1 := by decide

theorem witness_DecodeEncodeAgree : (Instr.loadImmediate (some 255) (some 0)).whole = true ∧
    (Instr.loadImmediate (some 255) (some 0)).wellFormed = true ∧ (Instr.multiply (some 1) none).wellFormed = true ∧
    decode [0x82, 0x09] = .instr (.loadImmediate (some 9) none) [] := by decide

theorem witness_WriteThenReadLaws : 255 < 256 ∧ (254 : Nat) ≠ 255 ∧ 256 ≤ 256 := by decide

theorem witness_CanonicalMemoriesAreEqual :
    Memory.wf (Memory.set (Memory.set [] 9 1) 3 5) = true ∧ Memory.wf (Memory.set (Memory.set [] 3 5) 9 1) = true ∧
      ∀ a, a < 256 → memRead (Memory.set (Memory.set [] 9 1) 3 5) a = memRead (Memory.set (Memory.set [] 3 5) 9 1) a :=
  ⟨by decide, by decide, fun _ _ => rfl⟩

theorem witness_AluApplyWritesDestinationOnly : (2 : BitVec 2) ≠ 3 ∧ (1 : Fin 8) ≠ 0 := by decide

theorem witness_ExecLoadImmediateWritesRegister : (7 : Byte).toNat < 8 := by decide

theorem witness_ExecLoadImmediateRaises : 8 ≤ (8 : Byte).toNat := by decide

theorem witness_ExecLeavesTheRestUnchanged :
    (∃ t, exec .halt (engine 0 []) = .next t) ∧ (∃ t, exec (.printRegister none) (engine 255 []) = .next t) ∧
      (∃ t, exec (.multiply (some 8) none) (engine 254 []) = .next t) ∧
      (∃ t, exec (.loadImmediate (some 7) (some 1)) (engine 0 []) = .next t) ∧
      ∃ t, exec (.loadImmediate (some 8) (some 1)) (engine 0 []) = .next t :=
  ⟨⟨_, rfl⟩, ⟨_, rfl⟩, ⟨_, rfl⟩, ⟨_, rfl⟩, ⟨_, rfl⟩⟩

theorem witness_StepRunsDecodedInstruction :
    (engine 253 [(253, 0x82), (254, 0x01), (255, 0x99)]).runsCycle Config.standard = true ∧
      decode (engine 253 [(253, 0x82), (254, 0x01), (255, 0x99)]).window =
        .instr (.loadImmediate (some 1) (some 0x99)) [] := by decide

theorem witness_EncodedInstructionInMemoryRuns :
    (engine 254 [(254, 0x47), (255, 0x08)]).runsCycle Config.standard = true ∧
      (Instr.printRegister (some 8)).whole = true ∧
      ∀ k : Nat, k < (encode (.printRegister (some 8))).length →
        memRead (engine 254 [(254, 0x47), (255, 0x08)]).mem ((engine 254 [(254, 0x47), (255, 0x08)]).pc.toNat + k) =
          (encode (.printRegister (some 8)))[k]? := by decide

theorem witness_OpcodeFetchChecksRange : 256 ≤ (engine 256 []).pc.toNat ∧ (engine 255 []).pc.toNat < 256 := by decide

theorem witness_LoadImmediateCycle_outside :
    (engine 254 [(254, 0x82)]).runsCycle skipping = true ∧ memRead (engine 254 [(254, 0x82)]).mem 254 = some 0x82 ∧
      (engine 255 [(255, 0x82)]).runsCycle skipping = true ∧ memRead (engine 255 [(255, 0x82)]).mem 255 = some 0x82 := by
  decide

theorem witness_LoadImmediateCycle_index :
    (engine 253 [(253, 0x82), (254, 0x08)]).runsCycle skipping = true ∧
      memRead (engine 253 [(253, 0x82), (254, 0x08)]).mem 253 = some 0x82 ∧
      memRead (engine 253 [(253, 0x82), (254, 0x08)]).mem 254 = some 8 ∧
      memRead (engine 253 [(253, 0x82), (254, 0x08)]).mem 255 = some 0 ∧ 8 ≤ (8 : Byte).toNat := by decide

theorem witness_LoadImmediateCycle_writes :
    (engine 0 [(0, 0x82), (1, 0x07)]).runsCycle skipping = true ∧
      memRead (engine 0 [(0, 0x82), (1, 0x07)]).mem 0 = some 0x82 ∧
      memRead (engine 0 [(0, 0x82), (1, 0x07)]).mem 1 = some 7 ∧
      memRead (engine 0 [(0, 0x82), (1, 0x07)]).mem 2 = some 0 ∧ (7 : Byte).toNat < 8 := by decide

theorem witness_LoadImmediateEndingAtLastAddress :
    (engine 253 [(253, 0x82), (254, 0x01), (255, 0x99)]).runsCycle Config.standard = true ∧
      (engine 253 [(253, 0x82), (254, 0x01), (255, 0x99)]).pc.toNat = 253 ∧
      memRead (engine 253 [(253, 0x82), (254, 0x01), (255, 0x99)]).mem 253 = some 0x82 ∧
      memRead (engine 253 [(253, 0x82), (254, 0x01), (255, 0x99)]).mem 254 = some 1 ∧
      memRead (engine 253 [(253, 0x82), (254, 0x01), (255, 0x99)]).mem 255 = some 0x99 ∧ (1 : Byte).toNat < 8 := by decide

theorem witness_PrintRegisterCycle : (engine 4 [(4, 0x47)]).runsCycle Config.standard = true ∧
    memRead (engine 4 [(4, 0x47)]).mem (engine 4 [(4, 0x47)]).pc.toNat = some 0x47 := by decide

theorem witness_PrintRegisterAtLastAddress : (engine 255 [(255, 0x47)]).runsCycle Config.standard = true ∧
    (engine 255 [(255, 0x47)]).pc.toNat = 255 ∧ memRead (engine 255 [(255, 0x47)]).mem 255 = some 0x47 := by decide

theorem witness_MultiplyCycle : (engine 6 [(6, 0xA2)]).runsCycle Config.standard = true ∧
    memRead (engine 6 [(6, 0xA2)]).mem (engine 6 [(6, 0xA2)]).pc.toNat = some 0xA2 := by decide

theorem witness_MultiplyNearTopOfMemory :
    ∀ pc ∈ [253, 254, 255], (engine (BitVec.ofNat 9 pc) [(pc, 0xA2)]).runsCycle Config.standard = true ∧
      253 ≤ (engine (BitVec.ofNat 9 pc) [(pc, 0xA2)]).pc.toNat ∧
      memRead (engine (BitVec.ofNat 9 pc) [(pc, 0xA2)]).mem pc = some 0xA2 := by decide

theorem witness_HaltCycle : (engine 255 [(255, 0x01)]).runsCycle Config.standard = true ∧
    memRead (engine 255 [(255, 0x01)]).mem (engine 255 [(255, 0x01)]).pc.toNat = some 0x01 := by decide

/-- V28 with a `start` after it. -/
def restarted : State := { engine 3 [(3, 0x01)] with inputs := [Inputs.idle, startInput, Inputs.idle] }

theorem witness_RestartRepeatsHalt : restarted.run = .running ∧ restarted.fault = .noFault ∧
    memRead restarted.mem restarted.pc.toNat = some 0x01 ∧
    restarted.inputs = Inputs.idle :: startInput :: Inputs.idle :: [] := by decide

theorem witness_UnknownOpcodeHalts : (engine 0 []).runsCycle Config.standard = true ∧ Config.standard.policy = .halt ∧
    memRead (engine 0 []).mem (engine 0 []).pc.toNat = some 0x00 ∧
    (0x00 : Byte) ≠ 0x01 ∧ (0x00 : Byte) ≠ 0x47 ∧ (0x00 : Byte) ≠ 0x82 ∧ (0x00 : Byte) ≠ 0xA2 := by decide

theorem witness_UnknownOpcodeSkips : (engine 255 [(255, 0xA1)]).runsCycle skipping = true ∧ skipping.policy = .skip ∧
    memRead (engine 255 [(255, 0xA1)]).mem (engine 255 [(255, 0xA1)]).pc.toNat = some 0xA1 ∧
    (0xA1 : Byte) ≠ 0x01 ∧ (0xA1 : Byte) ≠ 0x47 ∧ (0xA1 : Byte) ≠ 0x82 ∧ (0xA1 : Byte) ≠ 0xA2 := by decide

/-- One state for each entry of the priority list (section 2.7 of the vectors), and one without a condition. -/
theorem witness_FirstConditionIsRaised :
    (engine 256 []).firstCondition = some (.outOfBounds 256) ∧
      (engine 255 [(255, 0xEE)]).firstCondition = some (.unknownOpcode 0xEE) ∧
      (engine 255 [(255, 0x82)]).firstCondition = some (.outOfBounds 256) ∧
      (engine 254 [(254, 0x82), (255, 0x09)]).firstCondition = some (.outOfBounds 256) ∧
      (engine 0 [(0, 0x82), (1, 0x08), (2, 0x05)]).firstCondition = some (.registerIndexOutOfRange 8) ∧
      (engine 0 [(0, 0x82), (1, 0x07), (2, 0x05)]).firstCondition = none ∧
      (engine 256 []).runsCycle Config.standard = true ∧ (engine 255 [(255, 0xEE)]).runsCycle skipping = true := by decide

theorem witness_RaisedConditionCommitsNothing :
    (engine 0 []).runsCycle Config.standard = true ∧
      (∃ t, stepWith Config.standard (engine 0 []) = .next t ∧ t.events = [] ++ [.error .unknownOpcode 0]) ∧
      (engine 0 []).runsCycle skipping = true ∧
      ∃ t, stepWith skipping (engine 0 []) = .next t ∧ t.events = [] ++ [.error .unknownOpcode 0] :=
  ⟨by decide, ⟨_, rfl, rfl⟩, by decide, ⟨_, rfl, rfl⟩⟩

theorem witness_AtMostOneEventPerEdge : (engine 0 [(0, 0x47)]).pins.rst = false ∧
    (∃ t, stepWith Config.standard (engine 0 [(0, 0x47)]) = .next t) ∧
    ∃ t, stepWith Config.standard (engine 0 [(0, 0xA2)]) = .next t :=
  ⟨by decide, ⟨_, rfl⟩, ⟨_, rfl⟩⟩

theorem witness_IgnoredBytesHaveNoEffect : (engine 4 [(4, 0x47), (5, 0x02)]).runsCycle Config.standard = true ∧
    memRead (engine 4 [(4, 0x47), (5, 0x02)]).mem 4 = some 0x47 ∧ memRead [(4, 0x47), (5, 0xFF)] 4 = some 0x47 := by decide

theorem witness_ResetHasPriority : ({ engine 0 [(0, 0x47)] with inputs := [resetInput] }).pins.rst = true := by decide

theorem witness_LoadPortWhileHalted :
    ∀ a ∈ [255, 256], (halted [loadInput a 0xFF]).pins.rst = false ∧ (halted [loadInput a 0xFF]).run = .halted ∧
      (halted [loadInput a 0xFF]).pins.start = false ∧ (halted [loadInput a 0xFF]).pins.ldWe = true ∧
      (halted [loadInput a 0xFF]).pins.ldAddr.toNat = a := by decide

theorem witness_LoadAndStartIgnoredWhileRunning :
    ({ engine 0 [] with inputs := [Inputs.idle] }).run = .running ∧ Inputs.idle.rst = false ∧
      ({ engine 0 [] with inputs := [Inputs.idle] }).inputs = Inputs.idle :: [] := by decide

theorem witness_StartOnlySetsRun : (halted [startInput]).pins.rst = false ∧ (halted [startInput]).run = .halted ∧
    (halted [startInput]).pins.ldWe = false ∧ (halted [startInput]).pins.start = true ∧
    (halted [startInput]).fault = .noFault ∧ (halted [startInput] .outOfBounds).pins.ldWe = false ∧
    (halted [startInput] .outOfBounds).fault ≠ .noFault := by decide

/-- A running engine at whose coming edge `stop_req` is high. -/
def stopping : State := { engine 3 [] with inputs := [{ Inputs.idle with stopReq := true }] }

theorem witness_StopRequestReplacesInstruction : stoppable.hasStopReq = true ∧ stopping.pins.rst = false ∧
    stopping.run = .running ∧ stopping.pins.stopReq = true ∧ Config.standard.hasStopReq = false ∧
    stopping.inputs = { Inputs.idle with stopReq := true } :: [] := by decide

theorem witness_RunStateTransitionsAreComplete :
    (∃ t, stepWith Config.standard { engine 0 [] with inputs := [resetInput] } = .next t ∧ t.run ≠ .running) ∧
      (∃ t, stepWith Config.standard (halted [startInput]) = .next t ∧ t.run ≠ .halted) ∧
      (∃ t, stepWith Config.standard (engine 0 [(0, 0x01)]) = .next t ∧ t.run ≠ .running) ∧
      (∃ t, stepWith Config.standard (engine 0 []) = .next t ∧ t.run ≠ .running) ∧
      ∃ t, stepWith stoppable stopping = .next t ∧ t.run ≠ .running :=
  ⟨⟨_, rfl, by decide⟩, ⟨_, rfl, by decide⟩, ⟨_, rfl, by decide⟩, ⟨_, rfl, by decide⟩, ⟨_, rfl, by decide⟩⟩

/-- The end of V5, with two edges of the host's to come. -/
def faulted : State :=
  { engine 0 [(0, 0x82), (1, 0xFF), (2, 0x05)] with
    run := .halted, fault := .registerIndexOutOfRange, faultInfo := 255
    events := [.error .registerIndexOutOfRange 255], inputs := [startInput, loadInput 0 0x01] }

theorem witness_LatchedFaultStaysUntilReset :
    faulted.Inv ∧ faulted.fault ≠ .noFault ∧ ∀ inp ∈ faulted.inputs, inp.rst = false := by decide

theorem witness_ObservationShowsTheWindow :
    memRead (engine 253 [(253, 0x01)]).mem 253 = some 0x01 ∧ memRead (engine 253 [(253, 0x01)]).mem (253 + 1) = some 0 ∧
      memRead (engine 253 [(253, 0x01)]).mem (253 + 2) = some 0 ∧ 256 ≤ (engine 256 []).pc.toNat ∧
      256 ≤ (engine 255 []).pc.toNat + 1 ∧ 256 ≤ (engine 254 []).pc.toNat + 2 := by decide

theorem witness_EveryEdgeKeepsInvariant : (engine 255 [(255, 0xA2)]).Inv ∧
    (∃ t, stepWith Config.standard (engine 255 [(255, 0xA2)]) = .next t) ∧ faulted.Inv ∧
    ∃ t, stepWith Config.standard faulted = .next t :=
  ⟨by decide, ⟨_, rfl⟩, by decide, ⟨_, rfl⟩⟩

theorem witness_MemoryChangesOnlyByHost :
    (∃ t, stepWith Config.standard (halted [loadInput 255 0xFF]) = .next t ∧
        memRead t.mem 255 ≠ memRead (halted [loadInput 255 0xFF]).mem 255) ∧
      ∃ t, stepWith Config.standard { engine 0 [(7, 0x11)] with inputs := [resetInput] } = .next t ∧
        memRead t.mem 7 ≠ memRead (engine 0 [(7, 0x11)]).mem 7 :=
  ⟨⟨_, rfl, by decide⟩, ⟨_, rfl, by decide⟩⟩

theorem witness_RegistersChangeOnlyByTwoInstructions :
    (∃ t, stepWith Config.standard (engine 0 [(0, 0xA2)]) = .next t ∧ t.regs[0] ≠ (engine 0 [(0, 0xA2)]).regs[0]) ∧
      (∃ t, stepWith Config.standard (engine 0 [(0, 0x82), (1, 0x07)]) = .next t ∧
        t.regs[7] ≠ (engine 0 [(0, 0x82), (1, 0x07)]).regs[7]) ∧
      ∃ t, stepWith Config.standard { engine 0 [] with inputs := [resetInput] } = .next t ∧
        t.regs[7] ≠ (engine 0 []).regs[7] :=
  ⟨⟨_, rfl, by decide⟩, ⟨_, rfl, by decide⟩, ⟨_, rfl, by decide⟩⟩

theorem witness_PcNeverDecreases : (engine 255 [(255, 0xA2)]).pins.rst = false ∧
    ∃ t, stepWith Config.standard (engine 255 [(255, 0xA2)]) = .next t ∧ t.run = .running :=
  ⟨by decide, ⟨_, rfl, rfl⟩⟩

/-- The least move under each policy, the last address, and the fetch outside memory. -/
theorem witness_EachCycleHaltsOrAdvances :
    (engine 0 [(0, 0x47)]).runsCycle Config.standard = true ∧ Config.standard.policy = .halt ∧
      (engine 255 [(255, 0xFF)]).runsCycle skipping = true ∧ skipping.policy = .skip ∧
      (engine 256 []).runsCycle skipping = true := by decide

theorem witness_RunEndsInOneOfThreeWays :
    ((engine 0 [(0, 0x01)]).Inv ∧ (engine 0 [(0, 0x01)]).pins.rst = false ∧
        ∃ t, stepWith Config.standard (engine 0 [(0, 0x01)]) = .next t ∧ t.run = .halted) ∧
      ((engine 256 []).Inv ∧ ∃ t, stepWith Config.standard (engine 256 []) = .next t ∧ t.run = .halted) ∧
      stopping.Inv ∧ stopping.pins.rst = false ∧ stopping.run = .running ∧
      ∃ t, stepWith stoppable stopping = .next t ∧ t.run = .halted :=
  ⟨⟨by decide, by decide, ⟨_, rfl, rfl⟩⟩, ⟨by decide, ⟨_, rfl, rfl⟩⟩, by decide, by decide, by decide, ⟨_, rfl, rfl⟩⟩

theorem witness_EveryRunEnds : (engine 0 [(0, 0x47)]).run = .running ∧ (engine 0 [(0, 0x47)]).pc = 0 ∧
    (engine 0 [(0, 0x47)]).inputs = [] := by decide

theorem witness_UpperRegistersNeverReachTheEvents :
    sameButUpperRegs (engine 0 [(0, 0x47)] #v[1, 2, 3, 4, 5, 6, 7, 8])
      (engine 0 [(0, 0x47)] #v[1, 2, 0, 0, 0, 0, 0, 255]) :=
  ⟨rfl, rfl, rfl, rfl, rfl, rfl, rfl, rfl, rfl⟩

theorem witness_BootReachesLaunchState :
    bootInputs [0x82, 0x00, 0x08, 0x01] =
      some [resetInput, loadInput 0 0x82, loadInput 1 0x00, loadInput 2 0x08, loadInput 3 0x01, startInput] ∧
      (halted [resetInput, loadInput 0 0x82, loadInput 1 0x00, loadInput 2 0x08, loadInput 3 0x01, startInput]).inputs =
        [resetInput, loadInput 0 0x82, loadInput 1 0x00, loadInput 2 0x08, loadInput 3 0x01, startInput] ++ [] ∧
      (bootInputs (List.replicate 256 0)).isSome = true ∧ 256 < (List.replicate 257 (0 : Byte)).length :=
  ⟨by decide, by decide, by unfold bootInputs; rw [if_pos (Nat.le_of_eq List.length_replicate)]; rfl,
    by rw [List.length_replicate]; decide⟩

end Sys2Proof.Tests
end

section
/-!
PROOFS. The array laws of memory (20_memory.md, rules R31 to R33): what a cell reads after each list operation, then after
a write through the range check.
-/
namespace Sys2Proof.Machine

/-- An address the list does not name reads as the zero-initialised contents (rules R10, R27). -/
theorem Memory.read_of_free {m : Memory} {a : Nat} (hfree : ∀ cell ∈ m, cell.1 ≠ a) : Memory.read m a = Memory.fill := by
  induction m with
  | nil => rfl
  | cons cell rest ih =>
    have hne : cell.1 ≠ a := hfree cell List.mem_cons_self
    simp only [Memory.read, hne, if_false]
    exact ih fun c hc => hfree c (List.mem_cons_of_mem _ hc)

/-- The cells that stay when address `a` is left out do not name it. -/
theorem Memory.free_filter_ne (m : Memory) (a : Nat) : ∀ cell ∈ m.filter fun cell => cell.1 != a, cell.1 ≠ a :=
  fun _ hc => bne_iff_ne.mp (List.mem_filter.mp hc).2

/-- Leaving out the cells of one address does not change what another address reads. -/
theorem Memory.read_filter_of_ne (m : Memory) {a b : Nat} (hb : b ≠ a) :
    Memory.read (m.filter fun cell => cell.1 != a) b = Memory.read m b := by
  induction m with
  | nil => rfl
  | cons cell rest ih =>
    obtain ⟨k, w⟩ := cell
    by_cases hk : k = a
    · simpa [Memory.read, hk, hb.symm] using ih
    · simp only [List.filter_cons, bne_iff_ne.mpr hk, if_true, Memory.read, ih]

/-- The cell put into a list that does not name its address is the one read there. -/
theorem Memory.read_insertCell_self {m : Memory} {a : Nat} (v : Byte) (hfree : ∀ cell ∈ m, cell.1 ≠ a) :
    Memory.read (Memory.insertCell a v m) a = v := by
  induction m with
  | nil => simp [Memory.insertCell, Memory.read]
  | cons cell rest ih =>
    have hne : cell.1 ≠ a := hfree cell List.mem_cons_self
    by_cases hlt : a < cell.1
    · simp [Memory.insertCell, Memory.read, hlt]
    · simp only [Memory.insertCell, hlt, if_false, Memory.read, hne]
      exact ih fun c hc => hfree c (List.mem_cons_of_mem _ hc)

/-- Putting a cell in place does not change what another address reads. -/
theorem Memory.read_insertCell_of_ne (m : Memory) {a b : Nat} (v : Byte) (hb : b ≠ a) :
    Memory.read (Memory.insertCell a v m) b = Memory.read m b := by
  induction m with
  | nil => simp [Memory.insertCell, Memory.read, hb.symm]
  | cons cell rest ih =>
    by_cases hlt : a < cell.1
    · simp [Memory.insertCell, Memory.read, hlt, hb.symm]
    · simp only [Memory.insertCell, hlt, if_false, Memory.read, ih]

/-- The address written reads the value written, also where the value is the one an unlisted cell reads as. -/
@[simp] theorem Memory.read_set_self (m : Memory) (a : Nat) (v : Byte) : Memory.read (Memory.set m a v) a = v := by
  unfold Memory.set
  by_cases hv : v = Memory.fill
  · simp only [hv, if_true]
    exact Memory.read_of_free (Memory.free_filter_ne m a)
  · simp only [hv, if_false]
    exact Memory.read_insertCell_self v (Memory.free_filter_ne m a)

/-- Every other address reads as before the write. -/
theorem Memory.read_set_of_ne (m : Memory) {a b : Nat} (v : Byte) (hb : b ≠ a) :
    Memory.read (Memory.set m a v) b = Memory.read m b := by
  unfold Memory.set
  by_cases hv : v = Memory.fill
  · simp only [hv, if_true]
    exact Memory.read_filter_of_ne m hb
  · simp only [hv, if_false]
    exact (Memory.read_insertCell_of_ne _ v hb).trans (Memory.read_filter_of_ne m hb)

/-- The read-after-write law of rule R33, through the range check. -/
theorem memRead_set_self (m : Memory) {a : Nat} (v : Byte) (ha : a < 256) : memRead (Memory.set m a v) a = some v := by
  rcases memRead_cases (Memory.set m a v) a with ⟨-, h⟩ | ⟨h, -⟩
  · rw [h, Memory.read_set_self]
  · omega

/-- The frame of a write (rule R32), through the range check: also an address outside memory answers as before. -/
theorem memRead_set_of_ne (m : Memory) {a b : Nat} (v : Byte) (hb : b ≠ a) :
    memRead (Memory.set m a v) b = memRead m b := by
  unfold memRead
  rw [Memory.read_set_of_ne m v hb]

/-- Settles O6: the two cases of the range check, the first by the laws of the list with a cell set. -/
theorem writeThenReadLaws : Obligations.WriteThenReadLaws := by
  unfold Obligations.WriteThenReadLaws
  intro m a v
  rcases memWrite_cases m a v with ⟨ha, hw⟩ | ⟨ha, hw⟩
  · exact ⟨fun _ => ⟨_, hw, memRead_set_self m v ha, fun _ hb => memRead_set_of_ne m v hb⟩, fun h => by omega⟩
  · exact ⟨fun h => by omega, fun _ => hw⟩

end Sys2Proof.Machine
end

section
/-!
PROOFS. The dispatch table of rule R55: the search through its four rows as one chain of comparisons, and the encoder's
bytes where every operand has a cell.
-/
namespace Sys2Proof.Machine

/-- A byte that is none of the four keys is bound to no handler (rules R55, R56). -/
theorem lookup_of_unbound {opcode : Byte} (h1 : opcode ≠ 0x01) (h2 : opcode ≠ 0x47) (h3 : opcode ≠ 0x82)
    (h4 : opcode ≠ 0xA2) : lookup opcode = none := by
  simp only [lookup, Option.map_eq_none_iff, List.find?_eq_none, dispatchTable, List.forall_mem_cons, beq_iff_eq]
  exact ⟨h1.symm, h2.symm, h3.symm, h4.symm, by simp⟩

/-- `Lookup(opcode)` compares the opcode with the four keys in the order of the rows, and is `absent` behind the last
(rules R55, R56). -/
theorem lookup_eq_ite (opcode : Byte) :
    lookup opcode =
      if opcode = 0x01 then some .halt
      else if opcode = 0x47 then some .printRegister
      else if opcode = 0x82 then some .loadImmediate
      else if opcode = 0xA2 then some .multiply
      else none := by
  split_ifs with h1 h2 h3 h4
  · subst h1; rfl
  · subst h2; rfl
  · subst h3; rfl
  · subst h4; rfl
  · exact lookup_of_unbound h1 h2 h3 h4

/-- Format F1: the opcode alone (rules R51, R55). -/
@[simp] theorem encode_halt : encode .halt = [0x01] := rfl

/-- Format F2: the opcode and one operand byte (rules R51, R55). -/
@[simp] theorem encode_printRegister_some (b : Byte) : encode (.printRegister (some b)) = [0x47, b] := rfl

/-- Format F3, operand 1 before operand 2 (rules R51, R55). -/
@[simp] theorem encode_loadImmediate_some (r v : Byte) :
    encode (.loadImmediate (some r) (some v)) = [0x82, r, v] := rfl

/-- Format F3, both operand bytes ignored by the machine and still written (rules R51, R55). -/
@[simp] theorem encode_multiply_some (b1 b2 : Byte) : encode (.multiply (some b1) (some b2)) = [0xA2, b1, b2] := rfl

/-- Settles O2: the table by comparing with its keys, the lengths and the formats row by row. -/
theorem lookupBindsFourOpcodes : Obligations.LookupBindsFourOpcodes := by
  unfold Obligations.LookupBindsFourOpcodes
  exact ⟨lookup_eq_ite, rfl, rfl, rfl, rfl, encode_halt, encode_printRegister_some, encode_loadImmediate_some,
    encode_multiply_some⟩

end Sys2Proof.Machine
end

section
/-!
PROOFS. The opcode fetch (40_datapath_cycle.md, rule R74): the error entry at a pc outside memory, the byte at the pc
inside it.
-/
namespace Sys2Proof.Machine

/-- Raising a condition is the error entry of rule R126 with the condition's code and its recorded cause. -/
theorem State.raise_eq_errorEntry (s : State) (cond : Condition) :
    s.raise cond = s.errorEntry (conditionCode cond) (conditionInfo cond) := rfl

/-- With the pc outside memory the cycle ends with the error entry, its cause the pc itself (rules R74, R126). -/
theorem cycle_outside (c : Config) {s : State} (h : 256 ≤ s.pc.toNat) :
    cycle c s = .next (s.errorEntry .outOfBounds s.pc) := by
  rcases cycle_cases c s with ⟨-, hcycle⟩ | ⟨hlt, -⟩ | ⟨hlt, -⟩
  · rw [hcycle, State.raise_eq_errorEntry, conditionCode, conditionInfo]
  · omega
  · omega

/-- Below 256 a read answers the byte of the list (rule R31). -/
theorem memRead_inside (m : Memory) {a : Nat} (h : a < 256) : memRead m a = some (Memory.read m a) := by
  rcases memRead_cases m a with ⟨-, hread⟩ | ⟨hge, -⟩
  · exact hread
  · omega

/-- Settles O19: outside memory the window is empty and the cycle takes the error entry, inside memory the window begins
with the byte a read at the pc answers. -/
theorem opcodeFetchChecksRange : Obligations.OpcodeFetchChecksRange := by
  unfold Obligations.OpcodeFetchChecksRange
  intro c s
  constructor
  · intro hout
    exact ⟨State.window_outside hout, cycle_outside c hout⟩
  · intro hin
    obtain ⟨rest, hwindow, -, -⟩ := State.window_cons hin
    exact ⟨_, rest, memRead_inside s.mem hin, hwindow⟩

end Sys2Proof.Machine
end

section
/-!
PROOFS. The cycle of LOAD_IMMEDIATE (41_load_immediate.md, rules R90 to R92): what a read that answers says, the
instruction a bound opcode runs with its operand bytes, and the four endings of LOAD_IMMEDIATE.
-/
namespace Sys2Proof.Machine

/-- A read that answers was inside memory, and its answer is the byte of the list (rule R31). -/
theorem memRead_eq_some {m : Memory} {a : Nat} {b : Byte} (h : memRead m a = some b) :
    a < 256 ∧ Memory.read m a = b := by
  rcases memRead_cases m a with ⟨ha, hread⟩ | ⟨-, hread⟩
  · exact ⟨ha, Option.some.inj (hread.symm.trans h)⟩
  · simp [hread] at h

/-- From 256 on a read answers nothing (rule R31). -/
theorem memRead_outside (m : Memory) {a : Nat} (h : 256 ≤ a) : memRead m a = none := by
  rcases memRead_cases m a with ⟨hlt, -⟩ | ⟨-, hread⟩
  · omega
  · exact hread

/-- A bound opcode at the pc runs its handler's instruction, whose operand bytes are those that reads at `pc + 1` and
`pc + 2` answer (rules R75, R76, R81). -/
theorem cycle_of_lookup (c : Config) {s : State} {opcode : Byte} {h : Handler}
    (hop : memRead s.mem s.pc.toNat = some opcode) (hl : lookup opcode = some h) :
    ∃ rest i tail, rest[0]? = memRead s.mem (s.pc.toNat + 1) ∧ rest[1]? = memRead s.mem (s.pc.toNat + 2) ∧
      decodeOperands h rest = .instr i tail ∧ cycle c s = exec i s := by
  obtain ⟨hlt, rfl⟩ := memRead_eq_some hop
  obtain ⟨rest, hwindow, hop1, hop2⟩ := State.window_cons hlt
  rcases cycle_cases c s with ⟨hge, -⟩ | ⟨-, hnone, -⟩ | ⟨-, h', rest', i, tail, hl', hwindow', hdecode, hcycle⟩
  · omega
  · simp [hl] at hnone
  · obtain rfl : h = h' := Option.some.inj (hl.symm.trans hl')
    obtain rfl : rest = rest' := (List.cons.inj (hwindow.symm.trans hwindow')).2
    exact ⟨rest, i, tail, hop1, hop2, hdecode, hcycle⟩

/-- `Step()` on opcode 0x82 runs LOAD_IMMEDIATE on what reads at `pc + 1` and `pc + 2` answer (rule R90). -/
theorem cycle_loadImmediate (c : Config) {s : State} (hop : memRead s.mem s.pc.toNat = some 0x82) :
    cycle c s = exec (.loadImmediate (memRead s.mem (s.pc.toNat + 1)) (memRead s.mem (s.pc.toNat + 2))) s := by
  obtain ⟨rest, i, tail, hop1, hop2, hdecode, hcycle⟩ := cycle_of_lookup c hop (h := .loadImmediate) rfl
  simp only [decodeOperands, Decoded.instr.injEq] at hdecode
  rw [hcycle, ← hdecode.1, hop1, hop2]

/-- Without operand 1 the error entry records its address (rule R92). -/
theorem exec_loadImmediate_none (s : State) (imm : Operand) :
    exec (.loadImmediate none imm) s = .next (s.errorEntry .outOfBounds (s.pc + 1)) := rfl

/-- Without operand 2 the error entry records its address, whatever operand 1 is (rule R92). -/
theorem exec_loadImmediate_some_none (s : State) (r : Byte) :
    exec (.loadImmediate (some r) none) s = .next (s.errorEntry .outOfBounds (s.pc + 2)) := rfl

/-- An index of 8 or more takes the error entry with the whole index byte as cause (rule R91). -/
theorem exec_loadImmediate_of_ge (s : State) {r : Byte} (v : Byte) (hr : 8 ≤ r.toNat) :
    exec (.loadImmediate (some r) (some v)) s = .next (s.errorEntry .registerIndexOutOfRange (r.setWidth 9)) := by
  rcases regIndex_cases r with ⟨i, hi, -⟩ | ⟨-, hnone⟩
  · omega
  · simp only [exec, execLoadImmediate, hnone, State.raise_eq_errorEntry, conditionCode, conditionInfo]

/-- An index of 0 to 7 names the register that takes the immediate, and the pc advances by 3 (rule R90). -/
theorem exec_loadImmediate_of_lt (s : State) {r : Byte} (v : Byte) (hr : r.toNat < 8) :
    ∃ i : Fin 8, i.val = r.toNat ∧
      exec (.loadImmediate (some r) (some v)) s = .next ((s.writeReg i v).advance 3) := by
  rcases regIndex_cases r with ⟨i, hi, hsome⟩ | ⟨hge, -⟩
  · exact ⟨i, hi, by simp only [exec, execLoadImmediate, hsome]⟩
  · omega

/-- After a register write the register written holds the value and every other register is as before (rule R79). -/
theorem State.writeReg_getElem (s : State) (i j : Fin 8) (v : Byte) :
    (s.writeReg i v).regs[j] = if j.val = i.val then v else s.regs[j] := by
  simp only [State.writeReg_regs, Fin.getElem_fin, Vector.getElem_set, eq_comm]

/-- Where an instruction of `len` bytes begins in memory, the nine bits of the pc hold its end without wrapping
(rules R14, R78). -/
theorem State.advance_pc_toNat {s : State} {len : Nat} (hpc : s.pc.toNat < 256) (hlen : len ≤ 256) :
    (s.advance len).pc.toNat = s.pc.toNat + len := by
  rw [State.advance_pc, BitVec.toNat_add, BitVec.toNat_ofNat]
  omega

/-- A LOAD_IMMEDIATE cut off by the end of memory records address 256, be it operand 1 or operand 2 that has no cell
(rule R92). -/
theorem cycle_loadImmediate_cut_off (c : Config) {s : State} (hop : memRead s.mem s.pc.toNat = some 0x82)
    (hpc : s.pc.toNat = 254 ∨ s.pc.toNat = 255) : cycle c s = .next (s.errorEntry .outOfBounds 256) := by
  rw [cycle_loadImmediate c hop]
  rcases hpc with h254 | h255
  · have haddr : s.pc + 2 = 256 := by bv_omega
    rw [memRead_inside s.mem (by omega), memRead_outside s.mem (by omega), exec_loadImmediate_some_none, haddr]
  · have haddr : s.pc + 1 = 256 := by bv_omega
    rw [memRead_outside s.mem (by omega), exec_loadImmediate_none, haddr]

/-- Settles O20: cut off by the end of memory; else the two operand bytes are the ones read, and the index decides. -/
theorem loadImmediateCycle : Obligations.LoadImmediateCycle := by
  unfold Obligations.LoadImmediateCycle
  intro c s hop
  refine ⟨cycle_loadImmediate_cut_off c hop, fun r v hr hv => ?_⟩
  rw [cycle_loadImmediate c hop, hr, hv]
  refine ⟨exec_loadImmediate_of_ge s v, fun hlt => ?_⟩
  obtain ⟨i, hi, hexec⟩ := exec_loadImmediate_of_lt s v hlt
  have hregs (j : Fin 8) : ((s.writeReg i v).advance 3).regs[j] = if j.val = r.toNat then v else s.regs[j] := by
    rw [State.advance_regs, State.writeReg_getElem, hi]
  exact ⟨_, hexec, hregs, State.advance_pc_toNat (memRead_eq_some hop).1 (by decide), rfl⟩

end Sys2Proof.Machine
end

section
/-!
PROOFS. The cycle of PRINT_REGISTER (42_print_register.md, rule R95), and the event port at an edge that runs `Step()`
(rules R72, R73).
-/
namespace Sys2Proof.Machine

/-- An edge that runs `Step()` is not a reset edge, and is the cycle on the state whose inputs are sampled (rule R73). -/
theorem State.runsCycle_edge {c : Config} {s : State} (h : s.runsCycle c = true) :
    s.pins.rst = false ∧ stepWith c s = cycle c s.sampled := by
  simp only [State.runsCycle, Bool.and_eq_true, Bool.not_eq_true', decide_eq_true_eq] at h
  obtain ⟨⟨hrst, hrun⟩, hstop⟩ := h
  exact ⟨hrst, by simp [stepWith, clockEdge, hrst, hrun, hstop]⟩

/-- Where the cycle of an edge that runs it appends one event, the event port carries that event's lines (rule R72). -/
theorem eventPort_of_cycle {c : Config} {s t : State} {e : Event} (hruns : s.runsCycle c = true)
    (hcycle : cycle c s.sampled = .next t) (hevents : t.events = s.events ++ [e]) :
    eventPort c s = some (eventLines e) := by
  obtain ⟨hrst, hstep⟩ := State.runsCycle_edge hruns
  simp [eventPort, emittedEvent, hrst, hstep, hcycle, hevents]

/-- PRINT_REGISTER emits `Print(x[0])` and advances the pc by 2, whatever its operand byte (rule R95). -/
@[simp] theorem exec_printRegister (s : State) (ign1 : Operand) :
    exec (.printRegister ign1) s = .next ((s.emit (.print s.regs[0])).advance 2) := rfl

/-- `Step()` on opcode 0x47 has the effect of PRINT_REGISTER, be its operand byte in memory or not (rules R95, R96). -/
theorem cycle_printRegister (c : Config) {s : State} (hop : memRead s.mem s.pc.toNat = some 0x47) :
    cycle c s = .next ((s.emit (.print s.regs[0])).advance 2) := by
  obtain ⟨rest, i, tail, -, -, hdecode, hcycle⟩ := cycle_of_lookup c hop (h := .printRegister) rfl
  simp only [decodeOperands, Decoded.instr.injEq] at hdecode
  rw [hcycle, ← hdecode.1, exec_printRegister]

/-- Settles O22: the effect is that of the cycle at the pc; at an edge the same cycle runs on the sampled state, whose
memory, pc, `x[0]` and events are those of `s`, so its one new event is what the port carries. -/
theorem printRegisterCycle : Obligations.PrintRegisterCycle := by
  unfold Obligations.PrintRegisterCycle
  intro c s hop
  constructor
  · have hpc := (memRead_eq_some hop).1
    exact ⟨_, cycle_printRegister c hop, State.advance_pc_toNat (s := s.emit _) hpc (by decide), rfl, rfl⟩
  · intro hruns
    have hcycle := cycle_printRegister c (s := s.sampled) hop
    exact eventPort_of_cycle hruns hcycle rfl

end Sys2Proof.Machine
end

section
/-!
PROOFS. The cycle of MULTIPLY (43_alu_multiply.md, rule R106): its ALU cycle under the MUL tag as one register write,
run at the pc whatever operand bytes have a cell.
-/
namespace Sys2Proof.Machine

/-- The tag MULTIPLY presents selects MUL (rules R105, R106). -/
@[simp] theorem aluOp_tagMul : aluOp tagMul = some .mul := rfl

/-- MULTIPLY writes the eight-bit product of `x[0]` and `x[1]` to `x[0]` and advances the pc by 3, whatever its operand
bytes; the unsupported-tag branch of the ALU cycle is never taken (rules R104, R106). -/
@[simp] theorem exec_multiply (s : State) (ign1 ign2 : Operand) :
    exec (.multiply ign1 ign2) s = .next ((s.writeReg 0 (s.regs[0] * s.regs[1])).advance 3) :=
  congrArg Host.Outcome.next (State.aluCycle_of_op s aluOp_tagMul 0 1 3)

/-- `Step()` on opcode 0xA2 has the effect of MULTIPLY, be its operand bytes in memory or not (rules R106, R109). -/
theorem cycle_multiply (c : Config) {s : State} (hop : memRead s.mem s.pc.toNat = some 0xA2) :
    cycle c s = .next ((s.writeReg 0 (s.regs[0] * s.regs[1])).advance 3) := by
  obtain ⟨rest, i, tail, -, -, hdecode, hcycle⟩ := cycle_of_lookup c hop (h := .multiply) rfl
  simp only [decodeOperands, Decoded.instr.injEq] at hdecode
  rw [hcycle, ← hdecode.1, exec_multiply]

/-- Settles O24: the cycle is one register write and an advance; register 0 reads the product, every other register is
framed by the write, and the pc of an instruction that begins in memory does not wrap. -/
theorem multiplyCycle : Obligations.MultiplyCycle := by
  unfold Obligations.MultiplyCycle
  intro c s hop
  have hregs (j : Fin 8) := State.writeReg_getElem s 0 j (s.regs[0] * s.regs[1])
  refine ⟨_, cycle_multiply c hop, ?product, ?frame, ?pc, rfl⟩
  case product =>
    calc (s.writeReg 0 (s.regs[0] * s.regs[1])).regs[0].toNat
        = (s.regs[0] * s.regs[1]).toNat := congrArg BitVec.toNat (hregs 0)
      _ = s.regs[0].toNat * s.regs[1].toNat % 256 := BitVec.toNat_mul _ _
  case frame =>
    intro j hj
    exact (hregs j).trans (if_neg (Fin.val_ne_of_ne hj))
  case pc =>
    exact State.advance_pc_toNat (s := s.writeReg 0 _) (memRead_eq_some hop).1 (by decide)

end Sys2Proof.Machine
end

section
/-!
PROOFS. The cycle of HALT (44_halt.md, rule R110): the notification and the run state, at the pc and on the event port.
-/
namespace Sys2Proof.Machine

/-- HALT emits its notification and halts the engine; the pc does not advance (rule R110). -/
@[simp] theorem exec_halt (s : State) : exec .halt s = .next ((s.emit .haltNotice).setRun .halted) := rfl

/-- `Step()` on opcode 0x01 has the effect of HALT, which reads no operand byte (rules R51, R110). -/
theorem cycle_halt (c : Config) {s : State} (hop : memRead s.mem s.pc.toNat = some 0x01) :
    cycle c s = .next ((s.emit .haltNotice).setRun .halted) := by
  obtain ⟨rest, i, tail, -, -, hdecode, hcycle⟩ := cycle_of_lookup c hop (h := .halt) rfl
  simp only [decodeOperands, Decoded.instr.injEq] at hdecode
  rw [hcycle, ← hdecode.1, exec_halt]

/-- Settles O26: the effect is that of the cycle at the pc; at an edge the same cycle runs on the sampled state, whose
memory, pc and events are those of `s`, so the notification is the one event the port carries. -/
theorem haltCycle : Obligations.HaltCycle := by
  unfold Obligations.HaltCycle
  intro c s hop
  constructor
  · exact cycle_halt c hop
  · intro hruns
    have hcycle := cycle_halt c (s := s.sampled) hop
    exact eventPort_of_cycle hruns hcycle rfl

end Sys2Proof.Machine
end

section
/-!
PROOFS. The decoder and the encoder (30_encoding.md): what decoding answers by the opcode's row of the table, and that the
operand bytes behind an opcode are the ones the encoder writes (rules R51, R55, R56, R58).
-/
namespace Sys2Proof.Machine

/-- The opcode byte a handler is bound to (rule R55). -/
def handlerOpcode : Handler → Byte
  | .halt => opHalt
  | .printRegister => opPrintRegister
  | .loadImmediate => opLoadImmediate
  | .multiply => opMultiply

/-- The opcode is a unique key of the dispatch table (rules R23, R55). -/
theorem lookup_eq_some_iff {opcode : Byte} {h : Handler} : lookup opcode = some h ↔ opcode = handlerOpcode h := by
  constructor
  · intro hl
    rw [lookup_eq_ite] at hl
    split_ifs at hl with h1 h2 h3 h4 <;> cases hl <;> assumption
  · rintro rfl
    cases h <;> rfl

/-- The bytes that are absent from the dispatch table (rules R55, R56). -/
theorem lookup_eq_none_iff {opcode : Byte} :
    lookup opcode = none ↔ opcode ≠ 0x01 ∧ opcode ≠ 0x47 ∧ opcode ≠ 0x82 ∧ opcode ≠ 0xA2 := by
  constructor
  · rintro hl
    refine ⟨?_, ?_, ?_, ?_⟩ <;> rintro rfl <;> cases hl
  · rintro ⟨h1, h2, h3, h4⟩
    exact lookup_of_unbound h1 h2 h3 h4

/-- A handler's operands always give an instruction (rule R58). -/
theorem decodeOperands_eq_instr (h : Handler) (rest : List Byte) : ∃ i tail, decodeOperands h rest = .instr i tail := by
  cases h <;> exact ⟨_, _, rfl⟩

/-- What decoding answers where there is an opcode byte (rules R55, R56). -/
theorem decode_cons_cases (opcode : Byte) (rest : List Byte) :
    (lookup opcode = none ∧ decode (opcode :: rest) = .unknownOpcode opcode) ∨
      ∃ h i tail, lookup opcode = some h ∧ decodeOperands h rest = .instr i tail ∧
        decode (opcode :: rest) = .instr i tail := by
  cases hl : lookup opcode with
  | none => exact .inl ⟨rfl, by simp [decode, hl]⟩
  | some h =>
    obtain ⟨i, tail, hdecode⟩ := decodeOperands_eq_instr h rest
    exact .inr ⟨h, i, tail, rfl, hdecode, by simp [decode, hl, hdecode]⟩

/-- A bound opcode decodes to what its handler makes of the bytes behind it (rule R55). -/
theorem decode_handlerOpcode (h : Handler) (rest : List Byte) :
    decode (handlerOpcode h :: rest) = decodeOperands h rest := by
  cases h <;> rfl

/-- The first two bytes of a list, as operands, with what follows them are the list; operand 2 is there only behind
operand 1, and bytes follow only where both are there (rule R52). -/
theorem operands_split (rest : List Byte) :
    rest = rest[0]?.toList ++ rest[1]?.toList ++ rest.drop 2 ∧ operandsAscend rest[0]? rest[1]? = true ∧
      ((rest[0]?.isSome && rest[1]?.isSome) = true ∨ rest.drop 2 = []) := by
  match rest with
  | [] => exact ⟨rfl, rfl, .inr rfl⟩
  | [_] => exact ⟨rfl, rfl, .inr rfl⟩
  | _ :: _ :: _ => exact ⟨rfl, rfl, .inl rfl⟩

/-- Two operands in ascending order, with bytes behind them only where both are there, are read back by position. -/
theorem operands_of_append {op1 op2 : Operand} {rest : List Byte} (hasc : operandsAscend op1 op2 = true)
    (hrest : (op1.isSome && op2.isSome) = true ∨ rest = []) :
    (op1.toList ++ op2.toList ++ rest)[0]? = op1 ∧ (op1.toList ++ op2.toList ++ rest)[1]? = op2 ∧
      (op1.toList ++ op2.toList ++ rest).drop 2 = rest := by
  cases op1 <;> cases op2 <;> simp_all [operandsAscend]

/-- What a handler reads as an instruction is the encoding of that instruction, followed by the bytes it leaves. -/
theorem encode_of_decodeOperands {h : Handler} {rest tail : List Byte} {i : Instr}
    (hdecode : decodeOperands h rest = .instr i tail) :
    handlerOpcode h :: rest = encode i ++ tail ∧ i.wellFormed = true ∧ (i.whole = true ∨ tail = []) := by
  obtain ⟨hsplit, hasc, hwhole⟩ := operands_split rest
  cases h with
  | halt => cases hdecode; exact ⟨rfl, rfl, .inl rfl⟩
  | printRegister => cases hdecode; cases rest <;> simp [handlerOpcode, encode, Instr.wellFormed, Instr.whole]
  | loadImmediate => cases hdecode; exact ⟨congrArg (opLoadImmediate :: ·) hsplit, hasc, hwhole⟩
  | multiply => cases hdecode; exact ⟨congrArg (opMultiply :: ·) hsplit, hasc, hwhole⟩

/-- Decoding an encoding gives the instruction and the bytes behind it. -/
theorem decode_encode_append {i : Instr} {rest : List Byte} (hwf : i.wellFormed = true)
    (hrest : i.whole = true ∨ rest = []) : decode (encode i ++ rest) = .instr i rest := by
  cases i with
  | halt => exact decode_handlerOpcode .halt rest
  | printRegister ign1 =>
    rw [encode, List.cons_append, ← handlerOpcode, decode_handlerOpcode]
    cases ign1 <;> simp_all [decodeOperands, Instr.whole]
  | loadImmediate reg imm =>
    obtain ⟨h1, h2, h3⟩ := operands_of_append hwf hrest
    rw [encode, List.cons_append, ← handlerOpcode, decode_handlerOpcode, decodeOperands, h1, h2, h3]
  | multiply ign1 ign2 =>
    obtain ⟨h1, h2, h3⟩ := operands_of_append hwf hrest
    rw [encode, List.cons_append, ← handlerOpcode, decode_handlerOpcode, decodeOperands, h1, h2, h3]

/-- Settles O5: one way the operands of the encoding are read back by position; the other way an instruction comes from a
bound opcode, and its handler's operands split the bytes behind it. -/
theorem decodeEncodeAgree : Obligations.DecodeEncodeAgree := by
  unfold Obligations.DecodeEncodeAgree
  refine ⟨fun i rest => decode_encode_append, fun bytes i rest hdecode => ?_⟩
  cases bytes with
  | nil => cases hdecode
  | cons opcode behind =>
    rcases decode_cons_cases opcode behind with ⟨-, hunknown⟩ | ⟨h, i', tail, hl, hoperands, hinstr⟩
    · cases hunknown.symm.trans hdecode
    · cases hinstr.symm.trans hdecode
      rw [lookup_eq_some_iff.mp hl]
      exact encode_of_decodeOperands hoperands

/-- A handler with its operand bytes present consumes its length, and its instruction is whole (rules R50, R58). -/
theorem decodeOperands_length {h : Handler} {rest : List Byte} (hlen : handlerLength h ≤ rest.length + 1) :
    ∃ i, decodeOperands h rest = .instr i (rest.drop (handlerLength h - 1)) ∧ i.length = handlerLength h ∧
      i.whole = true := by
  have hsome (k : Nat) (hk : k + 1 < handlerLength h) : rest[k]?.isSome = true := by
    rw [isSome_getElem?]; omega
  cases h with
  | halt => exact ⟨_, rfl, rfl, rfl⟩
  | printRegister => exact ⟨_, rfl, rfl, hsome 0 (by decide)⟩
  | loadImmediate => exact ⟨_, rfl, rfl, Bool.and_eq_true_iff.mpr ⟨hsome 0 (by decide), hsome 1 (by decide)⟩⟩
  | multiply => exact ⟨_, rfl, rfl, Bool.and_eq_true_iff.mpr ⟨hsome 0 (by decide), hsome 1 (by decide)⟩⟩

/-- Settles O3: a bound opcode decodes to its handler's operands, whose number the handler fixes. -/
theorem lengthDependsOnOpcodeAlone : Obligations.LengthDependsOnOpcodeAlone := by
  unfold Obligations.LengthDependsOnOpcodeAlone
  intro opcode h rest hl hlen
  rw [lookup_eq_some_iff.mp hl, decode_handlerOpcode]
  exact decodeOperands_length hlen

/-- Settles O4: an opcode byte is either absent from the table, and refused by its name, or gives an instruction. -/
theorem decodeRejectsOnlyByName : Obligations.DecodeRejectsOnlyByName := by
  unfold Obligations.DecodeRejectsOnlyByName
  refine ⟨fun bytes => ?_, fun bytes opcode => ?_⟩
  · cases bytes with
    | nil => exact iff_of_true rfl rfl
    | cons b rest => rcases decode_cons_cases b rest with ⟨-, h⟩ | ⟨_, _, _, -, -, h⟩ <;> simp [h]
  · rw [← lookup_eq_none_iff]
    cases bytes with
    | nil => simp [decode]
    | cons b rest =>
      rcases decode_cons_cases b rest with ⟨hl, h⟩ | ⟨_, _, _, hl, -, h⟩ <;> rw [h]
      · simp only [Decoded.unknownOpcode.injEq, List.cons.injEq]
        exact ⟨fun he => ⟨⟨rest, he, rfl⟩, he ▸ hl⟩, fun ⟨⟨_, he, _⟩, _⟩ => he⟩
      · simp only [List.cons.injEq, reduceCtorEq, false_iff, not_and]
        rintro ⟨_, rfl, _⟩ hnone
        cases hl.symm.trans hnone

/-- Settles O1: each word is evaluated. -/
theorem decodesTheSpecsWords : Obligations.DecodesTheSpecsWords := by
  unfold Obligations.DecodesTheSpecsWords
  decide

end Sys2Proof.Machine
end

section
/-!
PROOFS. What one cycle and one clock edge can do, as two relations with one constructor per outcome: the
function always answers a next state, and that state is one of the outcomes (rules R73, R81, R128). The proofs about edges split on these constructors and do not unfold `cycle`
or `clockEdge` again.
-/
namespace Sys2Proof.Machine

/-- The condition a cycle ends with in the halt form of the error entry (rules R74, R91, R92, R122, R128). -/
inductive State.Raises (c : Config) (s : State) : Condition → Prop
  | fetch (hpc : 256 ≤ s.pc.toNat) : State.Raises c s (.outOfBounds s.pc)
  | unknownOpcode {opcode : Byte} (hop : memRead s.mem s.pc.toNat = some opcode) (hl : lookup opcode = none)
      (hpolicy : c.policy = .halt) : State.Raises c s (.unknownOpcode opcode)
  | operand (hop : memRead s.mem s.pc.toNat = some 0x82) (hpc : s.pc.toNat = 254 ∨ s.pc.toNat = 255) :
      State.Raises c s (.outOfBounds 256)
  | registerIndex {r v : Byte} (hop : memRead s.mem s.pc.toNat = some 0x82)
      (hreg : memRead s.mem (s.pc.toNat + 1) = some r) (himm : memRead s.mem (s.pc.toNat + 2) = some v)
      (hr : 8 ≤ r.toNat) : State.Raises c s (.registerIndexOutOfRange r)

/-- What `Step()` can leave (rule R81). -/
inductive CycleEffect (c : Config) (s : State) : State → Prop
  | raise {cond : Condition} (hraises : s.Raises c cond) : CycleEffect c s (s.raise cond)
  | skip {opcode : Byte} (hop : memRead s.mem s.pc.toNat = some opcode) (hl : lookup opcode = none)
      (hpolicy : c.policy = .skip) : CycleEffect c s (s.raiseSkip (.unknownOpcode opcode))
  | halt (hop : memRead s.mem s.pc.toNat = some 0x01) : CycleEffect c s ((s.emit .haltNotice).setRun .halted)
  | print (hop : memRead s.mem s.pc.toNat = some 0x47) : CycleEffect c s ((s.emit (.print s.regs[0])).advance 2)
  | multiply (hop : memRead s.mem s.pc.toNat = some 0xA2) :
      CycleEffect c s ((s.writeReg 0 (s.regs[0] * s.regs[1])).advance 3)
  | load {r v : Byte} {i : Fin 8} (hop : memRead s.mem s.pc.toNat = some 0x82)
      (hreg : memRead s.mem (s.pc.toNat + 1) = some r) (himm : memRead s.mem (s.pc.toNat + 2) = some v)
      (hi : i.val = r.toNat) : CycleEffect c s ((s.writeReg i v).advance 3)

/-- The cycle on LOAD_IMMEDIATE has one of its effects: cut off, refused for its index, or completed (rules R90 to R92). -/
theorem cycleEffect_of_loadImmediate (c : Config) {s : State} (hop : memRead s.mem s.pc.toNat = some 0x82) :
    ∃ t, cycle c s = .next t ∧ CycleEffect c s t := by
  have hlt := (memRead_eq_some hop).1
  by_cases hpc : s.pc.toNat = 254 ∨ s.pc.toNat = 255
  · exact ⟨_, cycle_loadImmediate_cut_off c hop hpc, .raise (.operand hop hpc)⟩
  · have hreg := memRead_inside s.mem (a := s.pc.toNat + 1) (by omega)
    have himm := memRead_inside s.mem (a := s.pc.toNat + 2) (by omega)
    rw [cycle_loadImmediate c hop, hreg, himm]
    by_cases hr : 8 ≤ (Memory.read s.mem (s.pc.toNat + 1)).toNat
    · exact ⟨_, exec_loadImmediate_of_ge s _ hr, .raise (.registerIndex hop hreg himm hr)⟩
    · obtain ⟨i, hi, hexec⟩ := exec_loadImmediate_of_lt s (Memory.read s.mem (s.pc.toNat + 2)) (Nat.lt_of_not_le hr)
      exact ⟨_, hexec, .load hop hreg himm hi⟩

/-- Every state has a next state under `Step()`, and it is one of the effects (rule R81). -/
theorem cycle_effect (c : Config) (s : State) : ∃ t, cycle c s = .next t ∧ CycleEffect c s t := by
  rcases cycle_cases c s with ⟨hpc, hcycle⟩ | ⟨hpc, hl, hcycle⟩ | ⟨hpc, h, -, -, -, hl, -⟩
  · exact ⟨_, hcycle, .raise (.fetch hpc)⟩
  · have hop := memRead_inside s.mem hpc
    rcases State.raiseUnknownOpcode_cases c s (Memory.read s.mem s.pc.toNat) with ⟨hpolicy, hu⟩ | ⟨hpolicy, hu⟩
    · exact ⟨_, hu ▸ hcycle, .raise (.unknownOpcode hop hl hpolicy)⟩
    · exact ⟨_, hu ▸ hcycle, .skip hop hl hpolicy⟩
  · have hop := memRead_inside s.mem hpc
    rw [lookup_eq_some_iff.mp hl] at hop
    cases h with
    | halt => exact ⟨_, cycle_halt c hop, .halt hop⟩
    | printRegister => exact ⟨_, cycle_printRegister c hop, .print hop⟩
    | loadImmediate => exact cycleEffect_of_loadImmediate c hop
    | multiply => exact ⟨_, cycle_multiply c hop, .multiply hop⟩

/-- What a cycle that answers a next state did. -/
theorem cycleEffect_of_cycle {c : Config} {s t : State} (h : cycle c s = .next t) : CycleEffect c s t := by
  obtain ⟨t', hcycle, heffect⟩ := cycle_effect c s
  cases hcycle.symm.trans h
  exact heffect

/-- An absent opcode takes the entry its policy names (rules R56, R122). -/
theorem cycle_unknownOpcode (c : Config) {s : State} {opcode : Byte} (hop : memRead s.mem s.pc.toNat = some opcode)
    (hl : lookup opcode = none) : cycle c s = .next (s.raiseUnknownOpcode c opcode) := by
  obtain ⟨hpc, rfl⟩ := memRead_eq_some hop
  rcases cycle_cases c s with ⟨hge, -⟩ | ⟨-, -, hcycle⟩ | ⟨-, h, -, -, -, hsome, -⟩
  · omega
  · exact hcycle
  · cases hl.symm.trans hsome

/-- What a clock edge can leave (rule R73): the levels are those of `pins`, the state is the one without them. -/
inductive EdgeEffect (c : Config) (s : State) : State → Prop
  | reset (hrst : s.pins.rst = true) : EdgeEffect c s s.sampled.resetEdge
  | host (hrst : s.pins.rst = false) (hrun : s.run = .halted) :
      EdgeEffect c s ((s.sampled.loadPort s.pins).startPort s.pins)
  | stop (hrst : s.pins.rst = false) (hrun : s.run = .running) (hhas : c.hasStopReq = true)
      (hreq : s.pins.stopReq = true) : EdgeEffect c s (s.sampled.setRun .halted)
  | cycle {t : State} (hruns : s.runsCycle c = true) (hrst : s.pins.rst = false) (hrun : s.run = .running)
      (heffect : CycleEffect c s.sampled t) : EdgeEffect c s t

/-- When an edge runs `Step()` (rule R73). -/
theorem State.runsCycle_iff {c : Config} {s : State} :
    s.runsCycle c = true ↔ s.pins.rst = false ∧ s.run = .running ∧ (c.hasStopReq && s.pins.stopReq) = false := by
  simp only [State.runsCycle, Bool.and_eq_true, Bool.not_eq_true', decide_eq_true_eq, and_assoc]

/-- Every state has a next state at an edge, and it is one of the effects (rule R73). -/
theorem stepWith_effect (c : Config) (s : State) : ∃ t, stepWith c s = .next t ∧ EdgeEffect c s t := by
  rcases clockEdge_cases c s.pins s.sampled with
    ⟨hrst, hedge⟩ | ⟨hrst, hrun, hedge⟩ | ⟨hrst, hrun, hhas, hreq, hedge⟩ | ⟨hrst, hrun, hstop, hedge⟩
  · exact ⟨_, hedge, .reset hrst⟩
  · exact ⟨_, hedge, .host hrst hrun⟩
  · exact ⟨_, hedge, .stop hrst hrun hhas hreq⟩
  · obtain ⟨t, hcycle, heffect⟩ := cycle_effect c s.sampled
    exact ⟨t, hedge.trans hcycle, .cycle (State.runsCycle_iff.mpr ⟨hrst, hrun, hstop⟩) hrst hrun heffect⟩

/-- What an edge that answers a next state did. -/
theorem edgeEffect_of_stepWith {c : Config} {s t : State} (h : stepWith c s = .next t) : EdgeEffect c s t := by
  obtain ⟨t', hstep, heffect⟩ := stepWith_effect c s
  cases hstep.symm.trans h
  exact heffect

/-- An edge that runs `Step()` leaves an effect of the cycle (rule R73). -/
theorem State.runsCycle_effect {c : Config} {s : State} (h : s.runsCycle c = true) :
    ∃ t, stepWith c s = .next t ∧ CycleEffect c s.sampled t := by
  rw [(State.runsCycle_edge h).2]
  exact cycle_effect c s.sampled

/-- What LOAD_IMMEDIATE does depends on its operands and the pc alone: it raises one condition, or writes the register its
index byte names (rules R90 to R92). -/
theorem exec_loadImmediate_cases (reg imm : Operand) (pc : Word9) :
    (∃ cond, ∀ s : State, s.pc = pc → exec (.loadImmediate reg imm) s = .next (s.raise cond)) ∨
      ∃ (i : Fin 8) (v : Byte), reg = some (BitVec.ofNat 8 i.val) ∧
        ∀ s, exec (.loadImmediate reg imm) s = .next ((s.writeReg i v).advance 3) := by
  match reg, imm with
  | none, _ => exact .inl ⟨.outOfBounds (pc + 1), by rintro s rfl; rfl⟩
  | some r, none => exact .inl ⟨.outOfBounds (pc + 2), by rintro s rfl; rfl⟩
  | some r, some v =>
    rcases regIndex_cases r with ⟨i, hi, hindex⟩ | ⟨-, hindex⟩
    · refine .inr ⟨i, v, by rw [hi, BitVec.ofNat_toNat, BitVec.setWidth_eq], fun s => ?_⟩
      simp only [exec, execLoadImmediate, hindex]
    · refine .inl ⟨.registerIndexOutOfRange r, fun s _ => ?_⟩
      simp only [exec, execLoadImmediate, hindex]

/-- Execution of an instruction always answers a next state (rules R77, R81). -/
theorem exec_completes (i : Instr) (s : State) : ∃ t, exec i s = .next t := by
  cases i with
  | halt => exact ⟨_, exec_halt s⟩
  | printRegister ign1 => exact ⟨_, exec_printRegister s ign1⟩
  | multiply ign1 ign2 => exact ⟨_, exec_multiply s ign1 ign2⟩
  | loadImmediate reg imm =>
    rcases exec_loadImmediate_cases reg imm s.pc with ⟨cond, hexec⟩ | ⟨i, v, -, hexec⟩
    · exact ⟨_, hexec s rfl⟩
    · exact ⟨_, hexec s⟩

/-- Settles O44: an edge and an instruction each answer one of their effects. -/
theorem everythingCompletes : Obligations.EverythingCompletes := by
  unfold Obligations.EverythingCompletes
  refine ⟨fun c s => ?_, exec_completes⟩
  obtain ⟨t, hstep, -⟩ := stepWith_effect c s
  exact ⟨t, hstep⟩

end Sys2Proof.Machine
end

section
/-!
PROOFS. What every edge leaves unchanged and what it adds to the event stream: the host's moves while HALTED, the cycle,
the edge, and the event port (rules R44, R72, R84, R144).
-/
namespace Sys2Proof.Machine

section hostMoves
variable (s : State) (inp : Inputs)

/-- The load port touches memory alone (rule R44). -/
theorem State.loadPort_eq_with_mem : s.loadPort inp = { s with mem := (s.loadPort inp).mem } := by
  rcases State.loadPort_cases s inp with ⟨-, -, h⟩ | ⟨-, h⟩ <;> rw [h]

/-- `start` touches the run state alone (rule R144). -/
theorem State.startPort_eq_with_run : s.startPort inp = { s with run := (s.startPort inp).run } := by
  rcases State.startPort_cases s inp with ⟨-, -, h⟩ | ⟨-, h⟩ <;> rw [h]
  rfl

@[simp] theorem State.loadPort_regs : (s.loadPort inp).regs = s.regs := by rw [State.loadPort_eq_with_mem]
@[simp] theorem State.loadPort_pc : (s.loadPort inp).pc = s.pc := by rw [State.loadPort_eq_with_mem]
@[simp] theorem State.loadPort_run : (s.loadPort inp).run = s.run := by rw [State.loadPort_eq_with_mem]
@[simp] theorem State.loadPort_fault : (s.loadPort inp).fault = s.fault := by rw [State.loadPort_eq_with_mem]
@[simp] theorem State.loadPort_faultInfo : (s.loadPort inp).faultInfo = s.faultInfo := by rw [State.loadPort_eq_with_mem]
@[simp] theorem State.loadPort_events : (s.loadPort inp).events = s.events := by rw [State.loadPort_eq_with_mem]
@[simp] theorem State.loadPort_inputs : (s.loadPort inp).inputs = s.inputs := by rw [State.loadPort_eq_with_mem]

@[simp] theorem State.startPort_mem : (s.startPort inp).mem = s.mem := by rw [State.startPort_eq_with_run]
@[simp] theorem State.startPort_regs : (s.startPort inp).regs = s.regs := by rw [State.startPort_eq_with_run]
@[simp] theorem State.startPort_pc : (s.startPort inp).pc = s.pc := by rw [State.startPort_eq_with_run]
@[simp] theorem State.startPort_fault : (s.startPort inp).fault = s.fault := by rw [State.startPort_eq_with_run]
@[simp] theorem State.startPort_faultInfo : (s.startPort inp).faultInfo = s.faultInfo := by
  rw [State.startPort_eq_with_run]
@[simp] theorem State.startPort_events : (s.startPort inp).events = s.events := by rw [State.startPort_eq_with_run]
@[simp] theorem State.startPort_inputs : (s.startPort inp).inputs = s.inputs := by rw [State.startPort_eq_with_run]

end hostMoves

section cycleFrame
variable {c : Config} {s t : State}

/-- No cycle changes memory (rules R41, R93). -/
theorem CycleEffect.mem_eq (h : CycleEffect c s t) : t.mem = s.mem := by
  cases h <;> rfl

/-- No cycle touches what the host will drive. -/
theorem CycleEffect.inputs_eq (h : CycleEffect c s t) : t.inputs = s.inputs := by
  cases h <;> rfl

/-- A cycle adds no event or one event (rule R84). -/
theorem CycleEffect.events_cases (h : CycleEffect c s t) :
    t.events = s.events ∨ ∃ e, t.events = s.events ++ [e] := by
  cases h with
  | raise _ => exact .inr ⟨_, rfl⟩
  | skip _ _ _ => exact .inr ⟨_, rfl⟩
  | halt _ => exact .inr ⟨_, rfl⟩
  | print _ => exact .inr ⟨_, rfl⟩
  | multiply _ => exact .inl rfl
  | load _ _ _ _ => exact .inl rfl

/-- Every edge drops the levels it sampled and no others. -/
theorem EdgeEffect.inputs_eq (h : EdgeEffect c s t) : t.inputs = s.inputs.tail := by
  cases h with
  | reset _ => rfl
  | host _ _ => rw [State.startPort_inputs, State.loadPort_inputs, State.sampled_inputs]
  | stop _ _ _ _ => rfl
  | cycle _ _ _ heffect => exact heffect.inputs_eq

/-- An edge other than a reset adds no event or one event (rule R84). -/
theorem EdgeEffect.events_cases (h : EdgeEffect c s t) (hrst : s.pins.rst = false) :
    t.events = s.events ∨ ∃ e, t.events = s.events ++ [e] := by
  cases h with
  | reset hreset => cases hrst.symm.trans hreset
  | host _ _ => exact .inl (by rw [State.startPort_events, State.loadPort_events, State.sampled_events])
  | stop _ _ _ _ => exact .inl rfl
  | cycle _ _ _ heffect => exact heffect.events_cases

end cycleFrame

section eventPort
variable {c : Config} {s t : State}

/-- A reset edge emits no event (rules R72, R140). -/
theorem eventPort_of_reset (hrst : s.pins.rst = true) : eventPort c s = none := by
  simp [eventPort, emittedEvent, hrst]

/-- Where an edge adds no event the port is silent (rule R72). -/
theorem eventPort_of_events_eq (hrst : s.pins.rst = false) (hstep : stepWith c s = .next t)
    (hevents : t.events = s.events) : eventPort c s = none := by
  simp [eventPort, emittedEvent, hrst, hstep, hevents]

/-- Where an edge adds one event the port carries its lines (rule R72). -/
theorem eventPort_of_events_append {e : Event} (hrst : s.pins.rst = false) (hstep : stepWith c s = .next t)
    (hevents : t.events = s.events ++ [e]) : eventPort c s = some (eventLines e) := by
  simp [eventPort, emittedEvent, hrst, hstep, hevents]

/-- Settles O32: the two ways an edge leaves the event stream, each with what the port carries. -/
theorem atMostOneEventPerEdge : Obligations.AtMostOneEventPerEdge := by
  unfold Obligations.AtMostOneEventPerEdge
  intro c s t hrst hstep
  rcases (edgeEffect_of_stepWith hstep).events_cases hrst with hevents | ⟨e, hevents⟩
  · exact .inl ⟨hevents, eventPort_of_events_eq hrst hstep hevents⟩
  · exact .inr ⟨e, hevents, eventPort_of_events_append hrst hstep hevents⟩

end eventPort

end Sys2Proof.Machine
end

section
/-!
PROOFS. The invariant of the machine's states (rules R14, R20, R21, R126, R130): it holds after reset and every edge keeps
it; a latched fault stays until reset (rule R130).
-/
namespace Sys2Proof.Machine

/-- Settles O45: the reset state is one concrete state. -/
theorem invariantAtReset : Obligations.InvariantAtReset := by
  unfold Obligations.InvariantAtReset
  decide

/-- Every condition has a code of its own, which is not that of a clear latch (rule R120). -/
theorem conditionCode_ne_noFault (cond : Condition) : conditionCode cond ≠ .noFault := by
  cases cond <;> simp [conditionCode]

/-- A byte fits in the nine bits of a recorded cause (rule R21). -/
theorem byte_toNat_mod_512 (b : Byte) : b.toNat % 512 = b.toNat := Nat.mod_eq_of_lt (Nat.lt_trans b.isLt (by decide))

/-- A condition raised from a pc of at most 258 records a legal cause (rules R20, R21). -/
theorem State.Raises.causeLegal {c : Config} {s : State} {cond : Condition} (h : s.Raises c cond)
    (hpc : s.pc.toNat ≤ 258) : causeLegal (conditionCode cond) (conditionInfo cond) = true := by
  cases h with
  | fetch hge => simp [conditionCode, conditionInfo, Machine.causeLegal, hge, hpc]
  | @unknownOpcode opcode hop hl _ =>
    have hlt : opcode.toNat < 256 := opcode.isLt
    simp [conditionCode, conditionInfo, Machine.causeLegal, hl, byte_toNat_mod_512, hlt]
  | operand _ _ => rfl
  | @registerIndex r v _ _ _ hr =>
    have hlt : r.toNat < 256 := r.isLt
    simp [conditionCode, conditionInfo, Machine.causeLegal, byte_toNat_mod_512, hlt, hr]

section
variable {c : Config} {s t : State}

/-- A RUNNING engine has a clear latch (rule R130). -/
theorem State.Inv.fault_of_running (hs : s.Inv) (hrun : s.run = .running) : s.fault = .noFault := by
  obtain ⟨-, -, -, hlatched⟩ := hs
  by_contra hne
  cases hrun.symm.trans (hlatched hne).1

/-- A latched engine is HALTED (rule R126). -/
theorem State.Inv.halted_of_fault (hs : s.Inv) (hfault : s.fault ≠ .noFault) : s.run = .halted := by
  obtain ⟨-, -, -, hlatched⟩ := hs
  exact (hlatched hfault).1

/-- The pc is at most 258 (rule R14). -/
theorem State.Inv.pc_le (hs : s.Inv) : s.pc.toNat ≤ 258 := by
  obtain ⟨-, hpc, -, -⟩ := hs
  exact hpc

/-- With a clear latch only memory's form and the range of the pc are to be kept. -/
theorem State.Inv.of_clear_latch (hs : s.Inv) (hclear : s.fault = .noFault) (hmem : t.mem = s.mem)
    (hpc : t.pc.toNat ≤ 258) (hfault : t.fault = s.fault) (hinfo : t.faultInfo = s.faultInfo) : t.Inv := by
  obtain ⟨hwf, -, hcause, -⟩ := hs
  refine ⟨hmem ▸ hwf, hpc, ?_, fun hne => absurd (hfault.trans hclear) hne⟩
  rw [hfault, hinfo]
  exact hcause

/-- An instruction or a skipped byte that begins in memory leaves the pc at most 258 (rule R14). -/
theorem State.advance_pc_le {opcode : Byte} {len : Nat} (hop : memRead s.mem s.pc.toNat = some opcode)
    (hlen : len ≤ 3) : (s.advance len).pc.toNat ≤ 258 := by
  have hlt := (memRead_eq_some hop).1
  rw [State.advance_pc_toNat hlt (by omega)]
  omega

/-- A cycle keeps the invariant: a raised condition is reported and legal, everything else leaves the latch clear. -/
theorem CycleEffect.keeps_inv (h : CycleEffect c s t) (hs : s.Inv) (hrun : s.run = .running) : t.Inv := by
  have hclear := hs.fault_of_running hrun
  cases h with
  | raise hraises =>
    obtain ⟨hwf, hpc, -, -⟩ := hs
    exact ⟨hwf, hpc, hraises.causeLegal hpc, fun _ => ⟨rfl, List.getLast?_concat⟩⟩
  | skip hop _ _ => exact hs.of_clear_latch hclear rfl (State.advance_pc_le (len := 1) hop (by decide)) rfl rfl
  | halt _ => exact hs.of_clear_latch hclear rfl hs.pc_le rfl rfl
  | print hop => exact hs.of_clear_latch hclear rfl (State.advance_pc_le (len := 2) hop (by decide)) rfl rfl
  | multiply hop => exact hs.of_clear_latch hclear rfl (State.advance_pc_le (len := 3) hop (by decide)) rfl rfl
  | load hop _ _ _ => exact hs.of_clear_latch hclear rfl (State.advance_pc_le (len := 3) hop (by decide)) rfl rfl

/-- A load write in range keeps memory canonical, and no other write happens (rules R44, R46). -/
theorem State.Inv.loadPort (hs : s.Inv) (inp : Inputs) : (s.loadPort inp).Inv := by
  rcases State.loadPort_cases s inp with ⟨-, ha, h⟩ | ⟨-, h⟩
  · obtain ⟨hwf, hrest⟩ := hs
    rw [h]
    exact ⟨Memory.wf_set hwf ha _, hrest⟩
  · rwa [h]

/-- `start` runs an engine with a clear latch only (rule R144). -/
theorem State.Inv.startPort (hs : s.Inv) (inp : Inputs) : (s.startPort inp).Inv := by
  rcases State.startPort_cases s inp with ⟨-, hclear, h⟩ | ⟨-, h⟩
  · obtain ⟨-, hpc, -, -⟩ := id hs
    rw [h]
    exact hs.of_clear_latch hclear rfl hpc rfl rfl
  · rwa [h]

/-- Sampling the inputs keeps the invariant, which does not speak of them. -/
theorem State.Inv.sampled (hs : s.Inv) : s.sampled.Inv := hs

/-- An edge keeps the invariant. -/
theorem EdgeEffect.keeps_inv (h : EdgeEffect c s t) (hs : s.Inv) : t.Inv := by
  cases h with
  | reset _ => exact invariantAtReset
  | host _ _ => exact (hs.sampled.loadPort s.pins).startPort s.pins
  | stop _ hrun _ _ => exact hs.of_clear_latch (hs.fault_of_running hrun) rfl hs.pc_le rfl rfl
  | cycle _ _ hrun heffect => exact heffect.keeps_inv hs.sampled hrun

end

/-- Settles O46: each effect of an edge keeps the invariant. -/
theorem everyEdgeKeepsInvariant : Obligations.EveryEdgeKeepsInvariant := by
  unfold Obligations.EveryEdgeKeepsInvariant
  intro c s t hs hstep
  exact (edgeEffect_of_stepWith hstep).keeps_inv hs

/-- One edge taken off a run. -/
theorem runWith_succ {c : Config} {s t : State} (h : stepWith c s = .next t) (k : Nat) :
    runWith c (k + 1) s = runWith c k t := by
  simp only [runWith, h]

/-- A host that never resets does not reset at the coming edge. -/
theorem State.pins_rst_of_no_reset {s : State} (h : ∀ inp ∈ s.inputs, inp.rst = false) : s.pins.rst = false := by
  unfold State.pins
  cases hin : s.inputs with
  | nil => rfl
  | cons inp rest => exact h inp (hin ▸ List.mem_cons_self)

/-- With the latch set a HALTED engine ignores `start`, so that an edge without reset changes at most memory
(rules R130, R144). -/
theorem stepWith_of_latched (c : Config) {s : State} (hrst : s.pins.rst = false) (hrun : s.run = .halted)
    (hfault : s.fault ≠ .noFault) : stepWith c s = .next (s.sampled.loadPort s.pins) := by
  have hignored : (s.sampled.loadPort s.pins).startPort s.pins = s.sampled.loadPort s.pins := by
    rcases State.startPort_cases (s.sampled.loadPort s.pins) s.pins with ⟨-, hclear, -⟩ | ⟨-, h⟩
    · simp [hfault] at hclear
    · exact h
  simp [stepWith, clockEdge, hrst, hrun, hignored]

/-- Settles O41, by induction on the number of edges: each is a load write at most, and the invariant keeps the engine
HALTED. -/
theorem latchedFaultStaysUntilReset : Obligations.LatchedFaultStaysUntilReset := by
  unfold Obligations.LatchedFaultStaysUntilReset
  intro c n
  induction n with
  | zero => exact fun s hs hfault _ => ⟨s, rfl, rfl, rfl, hs.halted_of_fault hfault, rfl, rfl, rfl⟩
  | succ n ih =>
    intro s hs hfault hinputs
    have hstep := stepWith_of_latched c (State.pins_rst_of_no_reset hinputs) (hs.halted_of_fault hfault) hfault
    have hnext := ih (s.sampled.loadPort s.pins) (hs.sampled.loadPort s.pins) (by simpa using hfault)
      fun inp hmem => hinputs inp (List.mem_of_mem_tail (by simpa using hmem))
    simpa [runWith_succ hstep] using hnext

end Sys2Proof.Machine
end

section
/-!
PROOFS. What cannot influence an edge: the registers `x[2]` to `x[7]` (rules R12, R97) and the bytes that PRINT_REGISTER,
MULTIPLY and HALT do not read (rule R54).
-/
namespace Sys2Proof.Machine

section upperRegs
variable {s t : State}

/-- The relation in one equation: the second state is the first with other registers, `x[0]` and `x[1]` as they were. -/
theorem sameButUpperRegs_iff :
    sameButUpperRegs s t ↔ ∃ r, t = { s with regs := r } ∧ s.regs[0] = r[0] ∧ s.regs[1] = r[1] := by
  constructor
  · rintro ⟨hmem, h0, h1, hpc, hrun, hfault, hinfo, hevents, hinputs⟩
    refine ⟨t.regs, ?_, h0, h1⟩
    simp only [hmem, hpc, hrun, hfault, hinfo, hevents, hinputs]
  · rintro ⟨r, rfl, h0, h1⟩
    exact ⟨rfl, h0, h1, rfl, rfl, rfl, rfl, rfl, rfl⟩

/-- A register write of one value on both sides keeps the relation, whatever register it names. -/
theorem sameButUpperRegs.writeReg (h : sameButUpperRegs s t) (i : Fin 8) (v : Byte) :
    sameButUpperRegs (s.writeReg i v) (t.writeReg i v) := by
  obtain ⟨r, rfl, h0, h1⟩ := sameButUpperRegs_iff.mp h
  exact sameButUpperRegs_iff.mpr ⟨_, rfl, by simp [Vector.getElem_set, h0], by simp [Vector.getElem_set, h1]⟩

/-- An operation that neither reads nor writes a register keeps the relation. -/
theorem sameButUpperRegs.map (h : sameButUpperRegs s t) {f : State → State}
    (hf : ∀ u r, f { u with regs := r } = { f u with regs := r }) (hregs : ∀ u, (f u).regs = u.regs) :
    sameButUpperRegs (f s) (f t) := by
  obtain ⟨r, rfl, h0, h1⟩ := sameButUpperRegs_iff.mp h
  exact sameButUpperRegs_iff.mpr ⟨r, hf s r, by rw [hregs, h0], by rw [hregs, h1]⟩

theorem sameButUpperRegs.advance (h : sameButUpperRegs s t) (len : Nat) :
    sameButUpperRegs (s.advance len) (t.advance len) :=
  h.map (f := (·.advance len)) (fun _ _ => rfl) fun _ => rfl

theorem sameButUpperRegs.emit (h : sameButUpperRegs s t) (e : Event) : sameButUpperRegs (s.emit e) (t.emit e) :=
  h.map (f := (·.emit e)) (fun _ _ => rfl) fun _ => rfl

theorem sameButUpperRegs.setRun (h : sameButUpperRegs s t) (run : RunState) :
    sameButUpperRegs (s.setRun run) (t.setRun run) :=
  h.map (f := (·.setRun run)) (fun _ _ => rfl) fun _ => rfl

theorem sameButUpperRegs.raise (h : sameButUpperRegs s t) (cond : Condition) :
    sameButUpperRegs (s.raise cond) (t.raise cond) :=
  h.map (f := (·.raise cond)) (fun _ _ => rfl) fun _ => rfl

theorem sameButUpperRegs.raiseUnknownOpcode (h : sameButUpperRegs s t) (c : Config) (opcode : Byte) :
    sameButUpperRegs (s.raiseUnknownOpcode c opcode) (t.raiseUnknownOpcode c opcode) := by
  unfold State.raiseUnknownOpcode
  cases c.policy with
  | halt => exact h.raise _
  | skip => exact (h.emit _).advance 1

theorem sameButUpperRegs.sampled (h : sameButUpperRegs s t) : sameButUpperRegs s.sampled t.sampled :=
  h.map (f := State.sampled) (fun _ _ => rfl) fun _ => rfl

/-- Reset gives every register one value on both sides (rule R27). -/
theorem sameButUpperRegs.resetEdge (h : sameButUpperRegs s t) : sameButUpperRegs s.resetEdge t.resetEdge := by
  obtain ⟨r, rfl, -⟩ := sameButUpperRegs_iff.mp h
  exact sameButUpperRegs_iff.mpr ⟨_, rfl, rfl, rfl⟩

theorem sameButUpperRegs.loadPort (h : sameButUpperRegs s t) (inp : Inputs) :
    sameButUpperRegs (s.loadPort inp) (t.loadPort inp) := by
  refine h.map (f := (·.loadPort inp)) (fun u r => ?_) fun u => u.loadPort_regs inp
  unfold State.loadPort
  cases inp.ldWe with
  | false => rfl
  | true => rcases memWrite_cases u.mem inp.ldAddr.toNat inp.ldData with ⟨-, hw⟩ | ⟨-, hw⟩ <;> simp [hw]

theorem sameButUpperRegs.startPort (h : sameButUpperRegs s t) (inp : Inputs) :
    sameButUpperRegs (s.startPort inp) (t.startPort inp) := by
  refine h.map (f := (·.startPort inp)) (fun u r => ?_) fun u => u.startPort_regs inp
  unfold State.startPort
  split_ifs <;> rfl

/-- An instruction reads `x[0]` and `x[1]` at most (rules R90, R95, R106, R110). -/
theorem sameButUpperRegs.exec (h : sameButUpperRegs s t) (i : Instr) :
    ∃ s' t', exec i s = .next s' ∧ exec i t = .next t' ∧ sameButUpperRegs s' t' := by
  have ⟨_, hx0, hx1, hpc, _⟩ := h
  cases i with
  | halt => exact ⟨_, _, exec_halt s, exec_halt t, (h.emit _).setRun _⟩
  | printRegister ign1 =>
    refine ⟨_, _, exec_printRegister s ign1, exec_printRegister t ign1, ?_⟩
    rw [hx0]
    exact (h.emit _).advance 2
  | multiply ign1 ign2 =>
    refine ⟨_, _, exec_multiply s ign1 ign2, exec_multiply t ign1 ign2, ?_⟩
    rw [hx0, hx1]
    exact (h.writeReg 0 _).advance 3
  | loadImmediate reg imm =>
    rcases exec_loadImmediate_cases reg imm t.pc with ⟨cond, hexec⟩ | ⟨i, v, -, hexec⟩
    · exact ⟨_, _, hexec s hpc, hexec t rfl, h.raise cond⟩
    · exact ⟨_, _, hexec s, hexec t, (h.writeReg i v).advance 3⟩

/-- The fetch reads memory at the pc, so that both sides decode alike and differ in `x[2]` to `x[7]` alone after the
cycle. -/
theorem sameButUpperRegs.cycle (h : sameButUpperRegs s t) (c : Config) :
    ∃ s' t', cycle c s = .next s' ∧ cycle c t = .next t' ∧ sameButUpperRegs s' t' := by
  have ⟨hmem, _, _, hpc, _⟩ := h
  have hwindow : s.window = t.window := by rw [State.window, State.window, hmem, hpc]
  unfold Machine.cycle
  rw [hwindow, hpc]
  cases decode t.window with
  | noOpcode => exact ⟨_, _, rfl, rfl, h.raise _⟩
  | unknownOpcode opcode => exact ⟨_, _, rfl, rfl, h.raiseUnknownOpcode c opcode⟩
  | instr i rest => exact h.exec i

/-- The edge's cases depend on the levels, the run state and the latch, which are equal. -/
theorem sameButUpperRegs.stepWith (h : sameButUpperRegs s t) (c : Config) :
    ∃ s' t', stepWith c s = .next s' ∧ stepWith c t = .next t' ∧ sameButUpperRegs s' t' := by
  have ⟨_, _, _, _, hrun, _, _, _, hinputs⟩ := h
  have hpins : s.pins = t.pins := by rw [State.pins, State.pins, hinputs]
  unfold Machine.stepWith clockEdge
  rw [hpins, State.sampled_run, State.sampled_run, hrun]
  cases t.pins.rst with
  | true => exact ⟨_, _, rfl, rfl, h.sampled.resetEdge⟩
  | false =>
    cases t.run with
    | halted => exact ⟨_, _, rfl, rfl, (h.sampled.loadPort _).startPort _⟩
    | running =>
      cases c.hasStopReq && t.pins.stopReq with
      | true => exact ⟨_, _, rfl, rfl, h.sampled.setRun _⟩
      | false => exact h.sampled.cycle c

/-- Settles O53, by induction on the number of edges: the relation is kept by each. -/
theorem upperRegistersNeverReachTheEvents : Obligations.UpperRegistersNeverReachTheEvents := by
  unfold Obligations.UpperRegistersNeverReachTheEvents
  intro c n
  induction n with
  | zero => exact fun s t h => ⟨s, t, rfl, rfl, h⟩
  | succ n ih =>
    intro s t h
    obtain ⟨s', t', hs, ht, h'⟩ := h.stepWith c
    rw [runWith_succ hs, runWith_succ ht]
    exact ih s' t' h'

end upperRegs

/-- Settles O33: the cycle of each of the three opcodes does not read the bytes behind it. -/
theorem ignoredBytesHaveNoEffect : Obligations.IgnoredBytesHaveNoEffect := by
  unfold Obligations.IgnoredBytesHaveNoEffect
  intro c s m opcode hruns hopcode hs hm
  have hruns' : State.runsCycle c { s with mem := m } = true := hruns
  rw [(State.runsCycle_edge hruns).2, (State.runsCycle_edge hruns').2]
  rcases hopcode with rfl | rfl | rfl
  · exact ⟨_, cycle_printRegister c hs, cycle_printRegister c hm⟩
  · exact ⟨_, cycle_multiply c hs, cycle_multiply c hm⟩
  · exact ⟨_, cycle_halt c hs, cycle_halt c hm⟩

end Sys2Proof.Machine
end

section
/-!
PROOFS. The machine against the spec's own listings of `Step()` (rule R81) and of a clock edge (rule R73): the view of each
operation over the state, the listing's line for each opcode, and the two simulations.
-/
namespace Sys2Proof.Machine

section view
variable (s : State)

/-- A read that answers is what the listing calls `mem[a]`. -/
theorem State.view_mem_of_memRead {s : State} {a : Nat} {b : Byte} (h : memRead s.mem a = some b) :
    s.view.mem a = b.toNat := by
  obtain ⟨ha, rfl⟩ := memRead_eq_some h
  exact if_pos ha

@[simp] theorem State.view_pc : s.view.pc = s.pc.toNat := rfl

@[simp] theorem State.view_run : s.view.run = s.run := rfl

/-- The listing's `fault = 0` is a clear latch (rule R20). -/
theorem State.view_fault_eq_zero_iff : s.view.fault = 0 ↔ s.fault = .noFault := by
  show codeNumber s.fault = 0 ↔ _
  cases s.fault <;> simp [codeNumber]

@[simp] theorem State.view_sampled : s.sampled.view = s.view := rfl

@[simp] theorem State.view_setRun (r : RunState) : (s.setRun r).view = { s.view with run := r } := rfl

@[simp] theorem State.view_emit (e : Event) :
    (s.emit e).view = { s.view with events := s.view.events ++ [listedEvent e] } := by
  simp [State.view]

@[simp] theorem State.view_raise (cond : Condition) :
    (s.raise cond).view = s.view.raise (codeNumber (conditionCode cond)) (conditionInfo cond).toNat := by
  simp [State.view, Listing.raise, conditionEvent, listedEvent]

theorem State.view_advance {s : State} {len : Nat} (hpc : s.pc.toNat < 256) (hlen : len ≤ 256) :
    (s.advance len).view = { s.view with pc := s.view.pc + len } := by
  rw [State.view, State.advance_pc_toNat hpc hlen]
  rfl

@[simp] theorem State.view_writeReg (i : Fin 8) (v : Byte) :
    (s.writeReg i v).view = { s.view with x := assign s.view.x i.val v.toNat } := by
  have hx : (s.writeReg i v).view.x = assign s.view.x i.val v.toNat := by
    funext j
    by_cases hj : j < 8
    · have hget := State.writeReg_getElem s i ⟨j, hj⟩ v
      simp only [Fin.getElem_fin] at hget
      simp only [State.view, assign, dif_pos hj, hget]
      exact apply_ite BitVec.toNat _ _ _
    · have hne : j ≠ i.val := by omega
      simp [State.view, assign, hj, hne]
  exact congrArg (fun x => { s.view with x := x }) hx

/-- The view of reset is the listing's reset state (rule R27). -/
theorem State.view_resetEdge : s.resetEdge.view = Listing.reset := by
  simp [State.view, Listing.reset, Memory.read, Memory.fill, codeNumber]

/-- The load port over numbers (rules R44, R46). -/
theorem State.view_loadPort (inp : Inputs) :
    (s.loadPort inp).view = { s.view with
      mem := if inp.ldWe = true ∧ inp.ldAddr.toNat < 256 then assign s.view.mem inp.ldAddr.toNat inp.ldData.toNat
        else s.view.mem } := by
  rcases State.loadPort_cases s inp with ⟨hwe, ha, h⟩ | ⟨hnone, h⟩
  · have hmem : (fun a => if a < 256 then (Memory.read (Memory.set s.mem inp.ldAddr.toNat inp.ldData) a).toNat else 0) =
        assign s.view.mem inp.ldAddr.toNat inp.ldData.toNat := by
      funext a
      by_cases haddr : a = inp.ldAddr.toNat
      · subst haddr
        simp [assign, ha]
      · simp [assign, haddr, State.view, Memory.read_set_of_ne s.mem inp.ldData haddr]
    rw [h, if_pos ⟨hwe, ha⟩, ← hmem]
    rfl
  · have hno : ¬ (inp.ldWe = true ∧ inp.ldAddr.toNat < 256) := by
      rintro ⟨hwe, ha⟩
      rcases hnone with hnwe | hge
      · cases hwe.symm.trans hnwe
      · omega
    rw [h, if_neg hno]

/-- `start` over numbers (rule R144). -/
theorem State.view_startPort (inp : Inputs) :
    (s.startPort inp).view = { s.view with
      run := if inp.start = true ∧ s.view.fault = 0 then .running else s.view.run } := by
  simp only [State.view_fault_eq_zero_iff]
  unfold State.startPort
  split_ifs <;> rfl

end view

section listing
variable {l : Listing} (policy : UnknownOpcodePolicy)

theorem Listing.step_outside (hpc : 256 ≤ l.pc) : l.step policy = l.raise 1 l.pc := by
  simp [Listing.step, hpc]

section
variable (hpc : l.pc < 256)
include hpc

theorem Listing.step_halt (hop : l.mem l.pc = 0x01) :
    l.step policy = { l with events := l.events ++ [.haltNotice], run := .halted } := by
  simp [Listing.step, Nat.not_le.mpr hpc, hop]

theorem Listing.step_printRegister (hop : l.mem l.pc = 0x47) :
    l.step policy = { l with events := l.events ++ [.print (l.x 0)], pc := l.pc + 2 } := by
  simp [Listing.step, Nat.not_le.mpr hpc, hop]

theorem Listing.step_multiply (hop : l.mem l.pc = 0xA2) :
    l.step policy = { l with x := assign l.x 0 (l.x 0 * l.x 1 % 256), pc := l.pc + 3 } := by
  simp [Listing.step, Nat.not_le.mpr hpc, hop]

theorem Listing.step_unknownOpcode_halt
    (hop : l.mem l.pc ≠ 0x01 ∧ l.mem l.pc ≠ 0x47 ∧ l.mem l.pc ≠ 0x82 ∧ l.mem l.pc ≠ 0xA2) :
    l.step .halt = l.raise 3 (l.mem l.pc) := by
  simp [Listing.step, Nat.not_le.mpr hpc, hop]

theorem Listing.step_unknownOpcode_skip
    (hop : l.mem l.pc ≠ 0x01 ∧ l.mem l.pc ≠ 0x47 ∧ l.mem l.pc ≠ 0x82 ∧ l.mem l.pc ≠ 0xA2) :
    l.step .skip = { l with events := l.events ++ [.error 3 (l.mem l.pc)], pc := l.pc + 1 } := by
  simp [Listing.step, Nat.not_le.mpr hpc, hop]

theorem Listing.step_loadImmediate (hop : l.mem l.pc = 0x82) :
    l.step policy =
      if 256 ≤ l.pc + 1 then l.raise 1 (l.pc + 1)
      else if 256 ≤ l.pc + 2 then l.raise 1 (l.pc + 2)
      else if 8 ≤ l.mem (l.pc + 1) then l.raise 4 (l.mem (l.pc + 1))
      else { l with x := assign l.x (l.mem (l.pc + 1)) (l.mem (l.pc + 2)), pc := l.pc + 3 } := by
  unfold Listing.step
  rw [if_neg (Nat.not_le.mpr hpc), if_pos hop]

end
end listing

section simulation
variable {c : Config} {s t : State}

/-- The byte at the pc, as the listing fetches it. -/
theorem State.view_opcode {opcode : Byte} (hop : memRead s.mem s.pc.toNat = some opcode) :
    s.view.pc < 256 ∧ s.view.mem s.view.pc = opcode.toNat :=
  ⟨(memRead_eq_some hop).1, State.view_mem_of_memRead hop⟩

/-- An absent opcode is, over numbers, none of the four the listing compares with. -/
theorem State.view_opcode_unbound {opcode : Byte} (hop : memRead s.mem s.pc.toNat = some opcode)
    (hl : lookup opcode = none) :
    s.view.mem s.view.pc ≠ 0x01 ∧ s.view.mem s.view.pc ≠ 0x47 ∧ s.view.mem s.view.pc ≠ 0x82 ∧
      s.view.mem s.view.pc ≠ 0xA2 := by
  obtain ⟨-, hmem⟩ := State.view_opcode hop
  obtain ⟨h1, h2, h3, h4⟩ := lookup_eq_none_iff.mp hl
  have hne {b : Byte} (hb : opcode ≠ b) : s.view.mem s.view.pc ≠ b.toNat := hmem ▸ BitVec.toNat_ne_iff_ne.mpr hb
  exact ⟨hne h1, hne h2, hne h3, hne h4⟩

/-- The condition a cycle raises is the one the listing raises. -/
theorem State.Raises.view_step {cond : Condition} (h : s.Raises c cond) :
    s.view.step c.policy = s.view.raise (codeNumber (conditionCode cond)) (conditionInfo cond).toNat := by
  cases h with
  | fetch hge => exact Listing.step_outside _ hge
  | unknownOpcode hop hl hpolicy =>
    obtain ⟨hpc, hmem⟩ := State.view_opcode hop
    rw [hpolicy, Listing.step_unknownOpcode_halt hpc (State.view_opcode_unbound hop hl), hmem]
    simp [conditionCode, conditionInfo, codeNumber, byte_toNat_mod_512]
  | operand hop hend =>
    obtain ⟨hpc, hmem⟩ := State.view_opcode hop
    rw [Listing.step_loadImmediate _ hpc hmem, State.view_pc]
    rcases hend with h254 | h255
    · simp [h254, conditionCode, conditionInfo, codeNumber]
    · simp [h255, conditionCode, conditionInfo, codeNumber]
  | registerIndex hop hreg himm hr =>
    obtain ⟨hpc, hmem⟩ := State.view_opcode hop
    have hlast := (memRead_eq_some himm).1
    rw [Listing.step_loadImmediate _ hpc hmem, State.view_pc, if_neg (by omega), if_neg (by omega),
      State.view_mem_of_memRead hreg, if_pos hr]
    simp [conditionCode, conditionInfo, codeNumber, byte_toNat_mod_512]

/-- A cycle leaves what the listing of `Step()` leaves (rule R81). -/
theorem CycleEffect.view_eq (h : CycleEffect c s t) : t.view = s.view.step c.policy := by
  cases h with
  | raise hraises => rw [hraises.view_step, State.view_raise]
  | skip hop hl hpolicy =>
    obtain ⟨hpc, hmem⟩ := State.view_opcode hop
    rw [hpolicy, Listing.step_unknownOpcode_skip hpc (State.view_opcode_unbound hop hl), hmem, State.raiseSkip,
      State.view_advance (s := s.emit _) hpc (by decide)]
    simp [conditionEvent, listedEvent, conditionCode, conditionInfo, codeNumber, byte_toNat_mod_512]
  | halt hop =>
    obtain ⟨hpc, hmem⟩ := State.view_opcode hop
    rw [Listing.step_halt _ hpc hmem, State.view_setRun, State.view_emit, listedEvent]
  | print hop =>
    obtain ⟨hpc, hmem⟩ := State.view_opcode hop
    rw [Listing.step_printRegister _ hpc hmem, State.view_advance (s := s.emit _) hpc (by decide), State.view_emit]
    rfl
  | multiply hop =>
    obtain ⟨hpc, hmem⟩ := State.view_opcode hop
    rw [Listing.step_multiply _ hpc hmem, State.view_advance (s := s.writeReg _ _) hpc (by decide), State.view_writeReg,
      BitVec.toNat_mul]
    rfl
  | load hop hreg himm hi =>
    obtain ⟨hpc, hmem⟩ := State.view_opcode hop
    have hlast := (memRead_eq_some himm).1
    rw [Listing.step_loadImmediate _ hpc hmem, State.view_pc, if_neg (by omega), if_neg (by omega),
      State.view_mem_of_memRead hreg, State.view_mem_of_memRead himm, if_neg (by omega),
      State.view_advance (s := s.writeReg _ _) hpc (by decide), State.view_writeReg, hi]
    rfl

/-- A clock edge leaves what the listed case analysis leaves (rule R73). -/
theorem EdgeEffect.view_eq (h : EdgeEffect c s t) : t.view = s.view.edge c s.pins := by
  unfold Listing.edge
  cases h with
  | reset hrst => rw [if_pos hrst, State.view_resetEdge]
  | host hrst hrun =>
    rw [if_neg (by simp [hrst]), if_pos (c := s.view.run = .halted) hrun, State.view_startPort, State.view_loadPort, State.view_sampled]
  | stop hrst hrun hhas hreq =>
    rw [if_neg (by simp [hrst]), if_neg (by simp [hrun]), if_pos ⟨hhas, hreq⟩, State.view_setRun, State.view_sampled]
  | cycle hruns hrst hrun heffect =>
    obtain ⟨-, -, hstop⟩ := State.runsCycle_iff.mp hruns
    have hno : ¬ (c.hasStopReq = true ∧ s.pins.stopReq = true) := by
      rw [← Bool.and_eq_true, hstop]
      decide
    rw [if_neg (by simp [hrst]), if_neg (by simp [hrun]), if_neg hno, heffect.view_eq, State.view_sampled]

end simulation

/-- Settles O55: the cycle's effect, seen over numbers. -/
theorem cycleRefinesStepListing : Obligations.CycleRefinesStepListing := by
  unfold Obligations.CycleRefinesStepListing
  intro c s
  obtain ⟨t, hcycle, heffect⟩ := cycle_effect c s
  exact ⟨t, hcycle, heffect.view_eq, heffect.inputs_eq⟩

/-- Settles O56: the edge's effect, seen over numbers. -/
theorem edgeRefinesCaseAnalysis : Obligations.EdgeRefinesCaseAnalysis := by
  unfold Obligations.EdgeRefinesCaseAnalysis
  intro c s
  obtain ⟨t, hstep, heffect⟩ := stepWith_effect c s
  exact ⟨t, hstep, heffect.view_eq, heffect.inputs_eq⟩

end Sys2Proof.Machine
end

section
/-!
PROOFS. Canonical memories (rule R39; log entry 5): a list in canonical form is determined by what its addresses read.
-/
namespace Sys2Proof.Machine

/-- The parts of the canonical form at the head of a list. -/
theorem Memory.wfFrom_cons {lo : Nat} {cell : Host.Cell} {rest : Memory} :
    Memory.wfFrom lo (cell :: rest) = true ↔
      lo ≤ cell.1 ∧ cell.1 < 256 ∧ cell.2 ≠ Memory.fill ∧ Memory.wfFrom (cell.1 + 1) rest = true := by
  simp only [Memory.wfFrom, Config.memSize, Bool.and_eq_true, decide_eq_true_eq, bne_iff_ne, and_assoc]

/-- An address below the ones a canonical list may name reads as an unlisted cell. -/
theorem Memory.read_of_wfFrom_lt {m : Memory} {lo a : Nat} (hm : Memory.wfFrom lo m = true) (ha : a < lo) :
    Memory.read m a = Memory.fill := by
  induction m generalizing lo with
  | nil => rfl
  | cons cell rest ih =>
    obtain ⟨hlo, -, -, hrest⟩ := Memory.wfFrom_cons.mp hm
    rw [Memory.read, if_neg (by omega)]
    exact ih hrest (by omega)

/-- The address at the head of a list reads its byte. -/
theorem Memory.read_cons_self (cell : Host.Cell) (rest : Memory) : Memory.read (cell :: rest) cell.1 = cell.2 := by
  rw [Memory.read, if_pos rfl]

/-- Where two canonical lists read alike, an address at the head of the second is not below all of the first. -/
theorem Memory.head_le_of_read_eq {lo : Nat} {m rest : Memory} {cell : Host.Cell} (hm : Memory.wfFrom lo m = true)
    (hcell : cell.2 ≠ Memory.fill) (hread : Memory.read m cell.1 = Memory.read (cell :: rest) cell.1) : lo ≤ cell.1 := by
  by_contra hlt
  rw [Memory.read_of_wfFrom_lt hm (by omega), Memory.read_cons_self] at hread
  exact hcell hread.symm

/-- A list in canonical form is determined by what its addresses below 256 read, by induction on both lists: the heads name
the lowest address that does not read as an unlisted cell. -/
theorem Memory.eq_of_wfFrom {m m' : Memory} {lo : Nat} (hm : Memory.wfFrom lo m = true)
    (hm' : Memory.wfFrom lo m' = true) (hread : ∀ a, a < 256 → Memory.read m a = Memory.read m' a) : m = m' := by
  induction m generalizing m' lo with
  | nil =>
    cases m' with
    | nil => rfl
    | cons cell' rest' =>
      obtain ⟨-, hlt', hne', -⟩ := Memory.wfFrom_cons.mp hm'
      exact absurd ((hread _ hlt').trans (Memory.read_cons_self cell' rest')).symm hne'
  | cons cell rest ih =>
    obtain ⟨-, hlt, hne, hrest⟩ := Memory.wfFrom_cons.mp hm
    cases m' with
    | nil => exact absurd ((hread _ hlt).symm.trans (Memory.read_cons_self cell rest)).symm hne
    | cons cell' rest' =>
      obtain ⟨-, hlt', hne', hrest'⟩ := Memory.wfFrom_cons.mp hm'
      have haddr : cell.1 = cell'.1 := by
        have hwf : Memory.wfFrom cell.1 (cell :: rest) = true := Memory.wfFrom_cons.mpr ⟨le_rfl, hlt, hne, hrest⟩
        have hwf' : Memory.wfFrom cell'.1 (cell' :: rest') = true := Memory.wfFrom_cons.mpr ⟨le_rfl, hlt', hne', hrest'⟩
        have hle := Memory.head_le_of_read_eq hwf hne' (hread _ hlt')
        have hge := Memory.head_le_of_read_eq hwf' hne (hread _ hlt).symm
        omega
      have hbyte : cell.2 = cell'.2 := by
        have hhead := hread _ hlt
        rwa [Memory.read_cons_self, haddr, Memory.read_cons_self] at hhead
      have htail (a : Nat) (ha : a < 256) : Memory.read rest a = Memory.read rest' a := by
        by_cases heq : a = cell.1
        · rw [Memory.read_of_wfFrom_lt hrest (by omega), Memory.read_of_wfFrom_lt hrest' (by omega)]
        · have hbehind := hread a ha
          rwa [Memory.read, if_neg (Ne.symm heq), Memory.read, if_neg (haddr ▸ Ne.symm heq)] at hbehind
      rw [Prod.ext haddr hbyte, ih hrest (haddr ▸ hrest') htail]

/-- Settles O7: reads below 256 are reads of the lists. -/
theorem canonicalMemoriesAreEqual : Obligations.CanonicalMemoriesAreEqual := by
  unfold Obligations.CanonicalMemoriesAreEqual
  intro m m' hm hm' hread
  refine Memory.eq_of_wfFrom hm hm' fun a ha => ?_
  have hsome := hread a ha
  rwa [memRead_inside m ha, memRead_inside m' ha, Option.some.injEq] at hsome

end Sys2Proof.Machine
end

section
/-!
PROOFS. The ALU block (43_alu_multiply.md section 1, rules R100 to R108): its three operations over integers, and the one
register it writes.
-/
namespace Sys2Proof.Machine

/-- Settles O8: each result is the eight-bit operation, whose value over the integers is taken modulo 256. -/
theorem aluComputesModulo256 : Obligations.AluComputesModulo256 := by
  unfold Obligations.AluComputesModulo256
  intro a b
  refine ⟨⟨a + b, rfl, ?_⟩, ⟨a - b, rfl, ?_⟩, ⟨a * b, rfl, ?_⟩⟩
  · rw [BitVec.toNat_add]
    omega
  · have hb : b.toNat < 256 := b.isLt
    rw [BitVec.toNat_sub]
    omega
  · rw [BitVec.toNat_mul]
    push_cast
    rfl

/-- Only tag 3 is not implemented (rules R104, R105). -/
theorem aluOp_of_ne_three {tag : BitVec 2} (h : tag ≠ 3) : ∃ op, aluOp tag = some op :=
  Option.isSome_iff_exists.mp ((by decide : ∀ tag : BitVec 2, tag ≠ 3 → (aluOp tag).isSome = true) tag h)

/-- `apply(op, d, s)` is one register write (rule R100). -/
theorem State.aluApply_of_op (s : State) {tag : BitVec 2} {op : AluOp} (h : aluOp tag = some op) (d src : Fin 8) :
    s.aluApply tag d src = some (s.writeReg d (aluResult op s.regs[d] s.regs[src])) := by
  simp [State.aluApply, State.readReg, alu, h]

/-- A register reads back what was written to it (rule R79). -/
@[simp] theorem State.writeReg_getElem_self (s : State) (i : Fin 8) (v : Byte) : (s.writeReg i v).regs[i] = v := by
  rw [State.writeReg_getElem, if_pos rfl]

/-- The other registers keep their values (rule R79). -/
theorem State.writeReg_getElem_of_ne (s : State) {i j : Fin 8} (h : j ≠ i) (v : Byte) :
    (s.writeReg i v).regs[j] = s.regs[j] := by
  rw [State.writeReg_getElem, if_neg (Fin.val_ne_of_ne h)]

/-- Settles O9: an implemented tag is one register write, with `d = s` its operands are one value, and MULTIPLY is the
write under the MUL tag. -/
theorem aluApplyWritesDestinationOnly : Obligations.AluApplyWritesDestinationOnly := by
  unfold Obligations.AluApplyWritesDestinationOnly
  refine ⟨fun s d src => rfl, fun s tag d src htag => ?_, fun s d => ?_, fun s b1 b2 => ?_⟩
  · obtain ⟨op, hop⟩ := aluOp_of_ne_three htag
    refine ⟨_, s.aluApply_of_op hop d src, ?_, fun j hj => s.writeReg_getElem_of_ne hj _, rfl⟩
    rw [State.writeReg_getElem_self, alu, hop, Option.map_some]
  · refine ⟨⟨_, s.aluApply_of_op (op := .add) rfl d d, ?_⟩, ⟨_, s.aluApply_of_op (op := .sub) rfl d d, ?_⟩,
      ⟨_, s.aluApply_of_op (op := .mul) rfl d d, ?_⟩⟩ <;> rw [State.writeReg_getElem_self, aluResult]
    · rw [BitVec.toNat_add, two_mul]
    · rw [BitVec.sub_self, BitVec.toNat_zero]
    · exact BitVec.toNat_mul _ _
  · exact ⟨_, s.aluApply_of_op aluOp_tagMul 0 1, exec_multiply s b1 b2⟩

/-- Settles O10: the unsupported tag takes the error entry, with its code and the tag as cause. -/
theorem unsupportedAluTagHalts : Obligations.UnsupportedAluTagHalts := by
  unfold Obligations.UnsupportedAluTagHalts
  refine ⟨fun a b => rfl, fun s d src len => ?_⟩
  rw [s.aluCycle_of_unsupported rfl, State.raise_eq_errorEntry]
  rfl

end Sys2Proof.Machine
end

section
/-!
PROOFS. What each instruction does when it is executed, and what it leaves unchanged (rules R90 to R92, R95, R106, R110).
-/
namespace Sys2Proof.Machine

/-- Settles O11: with a valid index the instruction is one register write and an advance. -/
theorem execLoadImmediateWritesRegister : Obligations.ExecLoadImmediateWritesRegister := by
  unfold Obligations.ExecLoadImmediateWritesRegister
  intro s r v hr
  obtain ⟨i, hi, hexec⟩ := exec_loadImmediate_of_lt s v hr
  exact ⟨_, hexec, fun j => hi ▸ State.writeReg_getElem s i j v, rfl⟩

/-- Settles O12: the three raising forms, operand 1 before operand 2 before the index. -/
theorem execLoadImmediateRaises : Obligations.ExecLoadImmediateRaises := by
  unfold Obligations.ExecLoadImmediateRaises
  exact ⟨exec_loadImmediate_none, exec_loadImmediate_some_none, fun s _ v hr => exec_loadImmediate_of_ge s v hr⟩

/-- Settles O13: the instruction is one event and an advance. -/
theorem execPrintRegisterEmits : Obligations.ExecPrintRegisterEmits := by
  unfold Obligations.ExecPrintRegisterEmits
  exact fun s b => exec_printRegister s b

/-- Settles O14: the instruction is one register write and an advance; an eight-bit product is one modulo 256. -/
theorem execMultiplyWritesProduct : Obligations.ExecMultiplyWritesProduct := by
  unfold Obligations.ExecMultiplyWritesProduct
  intro s b1 b2
  refine ⟨_, exec_multiply s b1 b2, ?_, fun j hj => s.writeReg_getElem_of_ne hj _, rfl⟩
  exact (congrArg BitVec.toNat (s.writeReg_getElem_self 0 _)).trans (BitVec.toNat_mul _ _)

/-- Settles O15: the instruction is one event and the run state. -/
theorem execHaltStops : Obligations.ExecHaltStops := by
  unfold Obligations.ExecHaltStops
  exact fun s => exec_halt s

/-- Settles O16, by cases on the instruction; LOAD_IMMEDIATE raises a condition or writes one register. -/
theorem execLeavesTheRestUnchanged : Obligations.ExecLeavesTheRestUnchanged := by
  unfold Obligations.ExecLeavesTheRestUnchanged
  intro i s t hexec
  cases i with
  | halt =>
    cases (exec_halt s).symm.trans hexec
    exact ⟨fun _ => rfl, rfl, rfl, rfl, rfl, rfl⟩
  | printRegister ign1 =>
    cases (exec_printRegister s ign1).symm.trans hexec
    exact ⟨fun _ => rfl, rfl, rfl, rfl, rfl, rfl⟩
  | multiply ign1 ign2 =>
    cases (exec_multiply s ign1 ign2).symm.trans hexec
    exact ⟨fun _ => rfl, rfl, fun j hj => s.writeReg_getElem_of_ne hj _, rfl, rfl, rfl, rfl⟩
  | loadImmediate reg imm =>
    rcases exec_loadImmediate_cases reg imm s.pc with ⟨cond, hraise⟩ | ⟨i, v, rfl, hwrite⟩
    · cases (hraise s rfl).symm.trans hexec
      exact ⟨fun _ => rfl, rfl, fun _ _ => rfl, .inr ⟨rfl, rfl⟩⟩
    · cases (hwrite s).symm.trans hexec
      refine ⟨fun _ => rfl, rfl, fun j hj => s.writeReg_getElem_of_ne ?_ v, .inl ⟨rfl, rfl, rfl, rfl⟩⟩
      rintro rfl
      exact hj rfl

end Sys2Proof.Machine
end

section
/-!
PROOFS. Edges that run `Step()` (rules R73, R81): the decoded instruction, instructions at the end of memory with the fetch
fault behind them (rules R92, R96, R109), and HALT with a restart (rule R111).
-/
namespace Sys2Proof.Machine

section
variable {c : Config} {s : State}

/-- The cycle on a window that decodes to an instruction executes it (rules R77, R81). -/
theorem cycle_of_decode (c : Config) {i : Instr} {rest : List Byte} (h : decode s.window = .instr i rest) :
    cycle c s = exec i s := by
  simp only [cycle, h]

/-- An edge that runs `Step()` on a window that decodes to an instruction executes it on the sampled state. -/
theorem stepWith_of_decode {i : Instr} {rest : List Byte} (hruns : s.runsCycle c = true)
    (h : decode s.window = .instr i rest) : stepWith c s = exec i s.sampled := by
  rw [(State.runsCycle_edge hruns).2, cycle_of_decode c (s := s.sampled) h]

/-- Settles O17: the step is the edge under the default parameters. -/
theorem stepRunsDecodedInstruction : Obligations.StepRunsDecodedInstruction := by
  unfold Obligations.StepRunsDecodedInstruction
  exact ⟨fun _ _ _ => stepWith_of_decode, fun _ _ _ _ => stepWith_of_decode, fun _ _ hruns => (State.runsCycle_edge hruns).2⟩

/-- Where the bytes of a whole instruction stand from the pc on, the cycle executes it (rules R51, R74, R75). -/
theorem cycle_of_encoded (c : Config) {i : Instr} (hwhole : i.whole = true)
    (hbytes : ∀ k : Nat, k < (encode i).length → memRead s.mem (s.pc.toNat + k) = (encode i)[k]?) :
    cycle c s = exec i s := by
  cases i with
  | halt => exact cycle_halt c (hbytes 0 (by simp))
  | printRegister ign1 => exact cycle_printRegister c (hbytes 0 (by simp [encode]))
  | multiply ign1 ign2 => exact (cycle_multiply c (hbytes 0 (by simp [encode]))).trans (exec_multiply s ign1 ign2).symm
  | loadImmediate reg imm =>
    obtain ⟨hreg, himm⟩ := Bool.and_eq_true_iff.mp hwhole
    obtain ⟨r, rfl⟩ := Option.isSome_iff_exists.mp hreg
    obtain ⟨v, rfl⟩ := Option.isSome_iff_exists.mp himm
    rw [encode_loadImmediate_some] at hbytes
    rw [cycle_loadImmediate c (hbytes 0 (by simp)), hbytes 1 (by simp), hbytes 2 (by simp)]
    rfl

/-- Settles O18: the edge is the cycle on the sampled state, whose memory and pc are those of `s`. -/
theorem encodedInstructionInMemoryRuns : Obligations.EncodedInstructionInMemoryRuns := by
  unfold Obligations.EncodedInstructionInMemoryRuns
  intro s i hruns hwhole hbytes
  exact (State.runsCycle_edge hruns).2.trans (cycle_of_encoded Config.standard (s := s.sampled) hwhole hbytes)

/-- An edge that fetches outside memory takes the error entry with the pc as cause (rules R74, R126). -/
theorem stepWith_outside (hruns : s.runsCycle c = true) {addr : Word9} (hpc : s.pc.toNat = addr.toNat)
    (hout : 256 ≤ addr.toNat) : stepWith c s = .next (s.sampled.errorEntry .outOfBounds addr) := by
  obtain rfl := BitVec.eq_of_toNat_eq hpc
  exact (State.runsCycle_edge hruns).2.trans (cycle_outside c (s := s.sampled) hout)

end

/-- Settles O21: the write at 253 leaves the pc at 256, where the next fetch is outside memory. -/
theorem loadImmediateEndingAtLastAddress : Obligations.LoadImmediateEndingAtLastAddress := by
  unfold Obligations.LoadImmediateEndingAtLastAddress
  intro c s r v hruns hpc hop hreg himm hr
  obtain ⟨-, hrun, -⟩ := State.runsCycle_iff.mp hruns
  obtain ⟨i, hi, hexec⟩ := exec_loadImmediate_of_lt s.sampled v hr
  have hbytes := cycle_loadImmediate c (s := s.sampled) (by simpa [hpc] using hop)
  rw [State.sampled_mem, State.sampled_pc, hpc, hreg, himm, hexec] at hbytes
  have hend : ((s.sampled.writeReg i v).advance 3).pc.toNat = 256 := by
    rw [State.advance_pc_toNat (s := s.sampled.writeReg i v) (by simp [hpc]) (by decide), State.writeReg_pc,
      State.sampled_pc, hpc]
  refine ⟨_, (State.runsCycle_edge hruns).2.trans hbytes, hend, hrun, fun j hj => ?_,
    fun hnext => stepWith_outside hnext hend (by decide)⟩
  rw [Fin.ext (hj.trans hi.symm)]
  exact State.writeReg_getElem_self s.sampled i v

/-- Settles O23: the event is emitted at 255 and the pc leaves memory behind it. -/
theorem printRegisterAtLastAddress : Obligations.PrintRegisterAtLastAddress := by
  unfold Obligations.PrintRegisterAtLastAddress
  intro c s hruns hpc hop
  obtain ⟨-, hrun, -⟩ := State.runsCycle_iff.mp hruns
  have hcycle := cycle_printRegister c (s := s.sampled) (by simpa [hpc] using hop)
  have hend : ((s.sampled.emit (.print s.sampled.regs[0])).advance 2).pc.toNat = 257 := by
    rw [State.advance_pc_toNat (s := s.sampled.emit _) (by simp [hpc]) (by decide), State.emit_pc, State.sampled_pc, hpc]
  exact ⟨_, (State.runsCycle_edge hruns).2.trans hcycle, rfl, hend, hrun,
    fun hnext => stepWith_outside hnext hend (by decide)⟩

/-- Settles O25: the product is written wherever the operand bytes would stand, and from 253 on the pc leaves memory. -/
theorem multiplyNearTopOfMemory : Obligations.MultiplyNearTopOfMemory := by
  unfold Obligations.MultiplyNearTopOfMemory
  intro c s hruns hpc hop
  obtain ⟨-, hrun, -⟩ := State.runsCycle_iff.mp hruns
  obtain ⟨t, hcycle, hproduct, -, hadvance, ht⟩ := multiplyCycle c s.sampled hop
  have hrun' : t.run = .running := by rw [ht]; exact hrun
  have hend : 256 ≤ t.pc.toNat := by rw [hadvance, State.sampled_pc]; omega
  exact ⟨t, (State.runsCycle_edge hruns).2.trans hcycle, hproduct, hadvance, hend, hrun',
    fun hnext => stepWith_outside hnext rfl hend⟩

section
variable (c : Config) {s : State} {rest : List Inputs}

/-- An edge without host input at a HALT byte (rule R110). -/
theorem stepWith_halt_idle (hrun : s.run = .running) (hop : memRead s.mem s.pc.toNat = some 0x01)
    (hinputs : s.inputs = Inputs.idle :: rest) :
    stepWith c s = .next { s with run := .halted, events := s.events ++ [.haltNotice], inputs := rest } := by
  have hpins : s.pins = Inputs.idle := by rw [State.pins, hinputs]; rfl
  have hruns : s.runsCycle c = true := State.runsCycle_iff.mpr ⟨by rw [hpins]; rfl, hrun, by rw [hpins]; simp [Inputs.idle]⟩
  rw [(State.runsCycle_edge hruns).2, cycle_halt c (s := s.sampled) hop, State.sampled, hinputs]
  rfl

/-- An edge with `start` alone, while HALTED with a clear latch (rule R144). -/
theorem stepWith_start (hrun : s.run = .halted) (hfault : s.fault = .noFault) (hinputs : s.inputs = startInput :: rest) :
    stepWith c s = .next { s with run := .running, inputs := rest } := by
  have hpins : s.pins = startInput := by rw [State.pins, hinputs]; rfl
  have hsampled : s.sampled = { s with inputs := rest } := by rw [State.sampled, hinputs]; rfl
  simp [stepWith, clockEdge, hpins, hsampled, startInput, Inputs.idle, hrun, State.loadPort, State.startPort, hfault,
    State.setRun]

end

/-- Settles O27: HALT, start, and HALT at the same pc. -/
theorem restartRepeatsHalt : Obligations.RestartRepeatsHalt := by
  unfold Obligations.RestartRepeatsHalt
  intro c s rest hrun hfault hop hinputs
  have hhalt := stepWith_halt_idle c hrun hop hinputs
  have hstart := stepWith_start c (rest := Inputs.idle :: rest) rfl
    (s := { s with run := .halted, events := s.events ++ [.haltNotice], inputs := startInput :: Inputs.idle :: rest })
    hfault rfl
  have hagain := stepWith_halt_idle c (rest := rest) rfl
    (s := { s with run := .running, events := s.events ++ [.haltNotice], inputs := Inputs.idle :: rest }) hop rfl
  simp [runWith, hhalt, hstart, hagain]

end Sys2Proof.Machine
end

section
/-!
PROOFS. The error conditions of a cycle (rules R122, R126 to R129): the unknown opcode under each policy, the priority list,
and that a reported condition commits nothing.
-/
namespace Sys2Proof.Machine

section
variable {c : Config} {s : State} {opcode : Byte}

/-- At an absent opcode the edge takes the entry its policy names (rule R122). -/
theorem stepWith_unknownOpcode (hruns : s.runsCycle c = true) (hop : memRead s.mem s.pc.toNat = some opcode)
    (hl : lookup opcode = none) : stepWith c s = .next (s.sampled.raiseUnknownOpcode c opcode) :=
  (State.runsCycle_edge hruns).2.trans (cycle_unknownOpcode c (s := s.sampled) hop hl)

/-- Under policy `halt` an absent opcode takes the error entry (rule R126). -/
theorem State.raiseUnknownOpcode_of_halt (s : State) (hpolicy : c.policy = .halt) :
    s.raiseUnknownOpcode c opcode = s.errorEntry .unknownOpcode (opcode.setWidth 9) := by
  rw [State.raiseUnknownOpcode, hpolicy]
  rfl

/-- Under policy `skip` it is reported and skipped (rule R127). -/
theorem State.raiseUnknownOpcode_of_skip (s : State) (hpolicy : c.policy = .skip) :
    s.raiseUnknownOpcode c opcode =
      { s with events := s.events ++ [.error .unknownOpcode (opcode.setWidth 9)], pc := s.pc + 1 } := by
  rw [State.raiseUnknownOpcode, hpolicy]
  rfl

end

/-- Settles O28: the error entry adds one event, which the port carries. -/
theorem unknownOpcodeHalts : Obligations.UnknownOpcodeHalts := by
  unfold Obligations.UnknownOpcodeHalts
  intro c s opcode hruns hpolicy hop h1 h2 h3 h4
  have hstep := stepWith_unknownOpcode hruns hop (lookup_of_unbound h1 h2 h3 h4)
  rw [State.raiseUnknownOpcode_of_halt _ hpolicy] at hstep
  exact ⟨hstep, eventPort_of_events_append (State.runsCycle_edge hruns).1 hstep rfl⟩

/-- Settles O29: the report adds one event, which the port carries, and the skipped byte begins in memory. -/
theorem unknownOpcodeSkips : Obligations.UnknownOpcodeSkips := by
  unfold Obligations.UnknownOpcodeSkips
  intro c s opcode hruns hpolicy hop h1 h2 h3 h4
  have hstep := stepWith_unknownOpcode hruns hop (lookup_of_unbound h1 h2 h3 h4)
  rw [State.raiseUnknownOpcode_of_skip _ hpolicy] at hstep
  exact ⟨_, hstep, State.advance_pc_toNat (len := 1) (memRead_eq_some hop).1 (by decide), rfl, rfl,
    eventPort_of_events_append (State.runsCycle_edge hruns).1 hstep rfl⟩

section
variable {c : Config} {s t : State}

/-- An absent opcode is the first condition in the list after the fetch (rule R128). -/
theorem State.firstCondition_unknownOpcode {opcode : Byte} (hop : memRead s.mem s.pc.toNat = some opcode)
    (hl : lookup opcode = none) : s.firstCondition = some (.unknownOpcode opcode) := by
  obtain ⟨hpc, rfl⟩ := memRead_eq_some hop
  unfold State.firstCondition
  rw [if_neg (by omega), if_pos (lookup_eq_none_iff.mp hl)]

/-- Where LOAD_IMMEDIATE has its operands only the index can apply (rule R128). -/
theorem State.firstCondition_load {r v : Byte} (hop : memRead s.mem s.pc.toNat = some 0x82)
    (hreg : memRead s.mem (s.pc.toNat + 1) = some r) (himm : memRead s.mem (s.pc.toNat + 2) = some v) :
    s.firstCondition = if 8 ≤ r.toNat then some (.registerIndexOutOfRange r) else none := by
  obtain ⟨h0, hread⟩ := memRead_eq_some hop
  obtain ⟨h1, rfl⟩ := memRead_eq_some hreg
  obtain ⟨h2, -⟩ := memRead_eq_some himm
  simp [State.firstCondition, hread, Nat.not_le.mpr h0, Nat.not_le.mpr h1, Nat.not_le.mpr h2]

/-- No condition of the list applies at an opcode that reads no operand (rule R128). -/
theorem State.firstCondition_eq_none {opcode : Byte} (hop : memRead s.mem s.pc.toNat = some opcode)
    (hopcode : opcode = 0x01 ∨ opcode = 0x47 ∨ opcode = 0xA2) : s.firstCondition = none := by
  obtain ⟨hpc, hread⟩ := memRead_eq_some hop
  rcases hopcode with rfl | rfl | rfl <;> simp [State.firstCondition, hread, Nat.not_le.mpr hpc]

/-- The condition a cycle raises is the first of the priority list (rule R128). -/
theorem State.Raises.firstCondition {cond : Condition} (h : s.Raises c cond) : s.firstCondition = some cond := by
  cases h with
  | fetch hge => simp [State.firstCondition, hge]
  | unknownOpcode hop hl _ => exact State.firstCondition_unknownOpcode hop hl
  | operand hop hend =>
    obtain ⟨-, hread⟩ := memRead_eq_some hop
    rcases hend with hpc | hpc <;> rw [hpc] at hread <;> simp [State.firstCondition, hpc, hread]
  | registerIndex hop hreg himm hr => rw [State.firstCondition_load hop hreg himm, if_pos hr]

end

/-- Settles O30: each effect of the cycle under the entry of the list it belongs to. -/
theorem firstConditionIsRaised : Obligations.FirstConditionIsRaised := by
  unfold Obligations.FirstConditionIsRaised
  intro c s hruns
  obtain ⟨t, hstep, heffect⟩ := State.runsCycle_effect hruns
  have hsampled : s.firstCondition = s.sampled.firstCondition := rfl
  cases heffect with
  | raise hraises =>
    rw [hsampled, hraises.firstCondition]
    cases hraises with
    | fetch _ => exact hstep
    | operand _ _ => exact hstep
    | registerIndex _ _ _ _ => exact hstep
    | unknownOpcode _ _ hpolicy =>
      simp only [hpolicy]
      exact hstep
  | skip hop hl hpolicy =>
    rw [hsampled, State.firstCondition_unknownOpcode hop hl]
    simp only [hpolicy]
    exact hstep
  | halt hop =>
    rw [hsampled, State.firstCondition_eq_none hop (.inl rfl)]
    exact ⟨_, hstep, rfl, rfl, .inr (.inl rfl)⟩
  | print hop =>
    rw [hsampled, State.firstCondition_eq_none hop (.inr (.inl rfl))]
    exact ⟨_, hstep, rfl, rfl, .inr (.inr ⟨_, rfl⟩)⟩
  | multiply hop =>
    rw [hsampled, State.firstCondition_eq_none hop (.inr (.inr rfl))]
    exact ⟨_, hstep, rfl, rfl, .inl rfl⟩
  | load hop hreg himm hi =>
    rw [hsampled, State.firstCondition_load hop hreg himm, if_neg (by omega)]
    exact ⟨_, hstep, rfl, rfl, .inl rfl⟩

/-- Settles O31: an `Error` event comes from a raised condition or from a skipped opcode, and from nothing else. -/
theorem raisedConditionCommitsNothing : Obligations.RaisedConditionCommitsNothing := by
  unfold Obligations.RaisedConditionCommitsNothing
  intro c s t code info hruns hstep hevents
  obtain ⟨-, hrun, -⟩ := State.runsCycle_iff.mp hruns
  cases cycleEffect_of_cycle ((State.runsCycle_edge hruns).2.symm.trans hstep) with
  | raise hraises =>
    obtain ⟨rfl, rfl⟩ : conditionCode _ = code ∧ conditionInfo _ = info := by
      simpa [conditionEvent] using hevents
    exact ⟨rfl, fun _ => rfl, .inl ⟨rfl, rfl, rfl, rfl⟩⟩
  | skip _ _ hpolicy =>
    obtain ⟨rfl, -⟩ : FaultCode.unknownOpcode = code ∧ _ = info := by
      simpa [conditionEvent, conditionCode] using hevents
    exact ⟨rfl, fun _ => rfl, .inr ⟨hpolicy, rfl, rfl, hrun, rfl, rfl⟩⟩
  | halt _ => simp at hevents
  | print _ => simp at hevents
  | multiply _ => simp at hevents
  | load _ _ _ _ => simp at hevents

end Sys2Proof.Machine
end

section
/-!
PROOFS. The host's moves at an edge (rules R44 to R46, R133, R140, R144, R145), what reset leaves (rule R27), and the output
ports (rules R71, R72, R134).
-/
namespace Sys2Proof.Machine

section
variable {c : Config} {s : State}

/-- A reset edge leaves the reset state, whatever else stands on the ports (rule R140). -/
theorem stepWith_reset (hrst : s.pins.rst = true) : stepWith c s = .next s.sampled.resetEdge :=
  if_pos hrst

/-- An edge while HALTED is the load port's move and then `start` (rule R73). -/
theorem stepWith_halted (hrst : s.pins.rst = false) (hrun : s.run = .halted) :
    stepWith c s = .next ((s.sampled.loadPort s.pins).startPort s.pins) := by
  simp [stepWith, clockEdge, hrst, hrun]

/-- An edge with a stop request that counts (rule R133). -/
theorem stepWith_stop (hrst : s.pins.rst = false) (hrun : s.run = .running) (hhas : c.hasStopReq = true)
    (hreq : s.pins.stopReq = true) : stepWith c s = .next (s.sampled.setRun .halted) := by
  simp [stepWith, clockEdge, hrst, hrun, hhas, hreq]

/-- The levels of the first listed edge are sampled and dropped (log entry 1). -/
theorem stepWith_of_inputs {inp : Inputs} {rest : List Inputs} (hinputs : s.inputs = inp :: rest) :
    stepWith c s = clockEdge c inp { s with inputs := rest } := by
  simp [stepWith, State.pins, State.sampled, hinputs]

/-- While RUNNING an edge without reset looks at `stop_req` alone (rules R45, R73, R145). -/
theorem clockEdge_of_running {inp : Inputs} (hrst : inp.rst = false) (hrun : s.run = .running) :
    clockEdge c inp s = if c.hasStopReq && inp.stopReq then .next (s.setRun .halted) else cycle c s := by
  rw [clockEdge, hrst, hrun]
  rfl

/-- Where the stop input does not exist no case looks at its level (rule R133). -/
theorem clockEdge_of_no_stopReq (hhas : c.hasStopReq = false) (inp : Inputs) (stop : Bool) :
    clockEdge c { inp with stopReq := stop } s = clockEdge c inp s := by
  rw [clockEdge, clockEdge, hhas]
  rfl

/-- While HALTED no event is emitted, whatever the host does (rules R44, R72, R144). -/
theorem eventPort_of_halted (hrst : s.pins.rst = false) (hrun : s.run = .halted) : eventPort c s = none :=
  eventPort_of_events_eq hrst (stepWith_halted hrst hrun) (by simp)

/-- Without `start` the start port does nothing (rule R144). -/
theorem State.startPort_of_not_start {inp : Inputs} (h : inp.start = false) : s.startPort inp = s := by
  simp [State.startPort, h]

/-- When `ld_err` is high (rules R46, R71; log entry 13). -/
theorem loadError_iff {inp : Inputs} :
    loadError inp s = true ↔ inp.rst = false ∧ s.run = .halted ∧ inp.ldWe = true ∧ 256 ≤ inp.ldAddr.toNat := by
  simp only [loadError, Config.memSize, Bool.and_eq_true, Bool.not_eq_true', decide_eq_true_eq, and_assoc]

end

/-- Settles O34: the reset state is one concrete state, and its memory lists no cell. -/
theorem resetLeavesEverythingZero : Obligations.ResetLeavesEverythingZero := by
  unfold Obligations.ResetLeavesEverythingZero
  exact ⟨fun a ha => memRead_inside _ ha, by decide, rfl, rfl, rfl, rfl, rfl, rfl⟩

/-- Settles O35: reset is the first case of the edge and the first of the event port. -/
theorem resetHasPriority : Obligations.ResetHasPriority := by
  unfold Obligations.ResetHasPriority
  exact fun c s hrst => ⟨stepWith_reset hrst, eventPort_of_reset hrst⟩

/-- Settles O36: without `start` the edge is the load port's move alone, in range by the array laws. -/
theorem loadPortWhileHalted : Obligations.LoadPortWhileHalted := by
  unfold Obligations.LoadPortWhileHalted
  intro c s hrst hrun hstart hwe
  have hstep := stepWith_halted (c := c) hrst hrun
  rw [State.startPort_of_not_start hstart] at hstep
  have hevent : (outputs c s).event = none := eventPort_of_halted hrst hrun
  rcases State.loadPort_cases s.sampled s.pins with ⟨-, ha, hport⟩ | ⟨hrefused, hport⟩
  · have herr : (outputs c s).ldErr = false := by
      refine Bool.eq_false_iff.mpr fun h => ?_
      obtain ⟨-, -, -, hge⟩ := loadError_iff.mp h
      omega
    refine ⟨fun _ => ?_, fun hge => by omega⟩
    exact ⟨_, hport ▸ hstep, memRead_set_self s.mem _ ha, fun b hb => memRead_set_of_ne s.mem _ hb, rfl, herr, hevent⟩
  · have hge : 256 ≤ s.pins.ldAddr.toNat := hrefused.resolve_left (by simp [hwe])
    exact ⟨fun hlt => by omega, fun _ => ⟨hport ▸ hstep, loadError_iff.mpr ⟨hrst, hrun, hwe, hge⟩, hevent⟩⟩

/-- Settles O37: the RUNNING case of the edge looks at `stop_req` alone. -/
theorem loadAndStartIgnoredWhileRunning : Obligations.LoadAndStartIgnoredWhileRunning := by
  unfold Obligations.LoadAndStartIgnoredWhileRunning
  intro c s inp rest start we addr data hrun hrst hinputs
  rw [stepWith_of_inputs hinputs, stepWith_of_inputs rfl,
    clockEdge_of_running (inp := inp) (s := { s with inputs := rest }) hrst hrun]
  exact clockEdge_of_running (s := { s with inputs := rest }) hrst hrun

/-- Settles O38: without a load write the edge is `start` alone, by its two cases. -/
theorem startOnlySetsRun : Obligations.StartOnlySetsRun := by
  unfold Obligations.StartOnlySetsRun
  intro c s hrst hrun hwe
  refine ⟨?_, eventPort_of_halted hrst hrun⟩
  rw [stepWith_halted hrst hrun]
  rcases State.loadPort_cases s.sampled s.pins with ⟨hwrite, -, -⟩ | ⟨-, hport⟩
  · cases hwe.symm.trans hwrite
  · rw [hport]
    rfl

/-- Settles O39: a request that counts is a case of the edge of its own; without the input no case looks at its level. -/
theorem stopRequestReplacesInstruction : Obligations.StopRequestReplacesInstruction := by
  unfold Obligations.StopRequestReplacesInstruction
  constructor
  · intro c s hhas hrst hrun hreq
    have hstep := stepWith_stop hrst hrun hhas hreq
    exact ⟨hstep, eventPort_of_events_eq hrst hstep rfl⟩
  · intro c s inp rest stop hhas hinputs
    rw [stepWith_of_inputs hinputs, stepWith_of_inputs rfl, clockEdge_of_no_stopReq hhas]

/-- A cell inside memory is observed with its byte (rule R134). -/
theorem observeCell_of_memRead {m : Memory} {a : Nat} {b : Byte} (h : memRead m a = some b) :
    observeCell m a = { valid := true, data := b } := by
  rw [observeCell, h]

/-- An address outside memory is observed as not valid (rule R134). -/
theorem observeCell_outside (m : Memory) {a : Nat} (h : 256 ≤ a) : observeCell m a = { valid := false, data := 0 } := by
  rw [observeCell, memRead_outside m h]

/-- Settles O42: the three cells of the window by what a read of each answers. -/
theorem observationShowsTheWindow : Obligations.ObservationShowsTheWindow := by
  unfold Obligations.ObservationShowsTheWindow
  intro s
  exact ⟨rfl, rfl, fun _ => observeCell_of_memRead, fun _ => observeCell_of_memRead, fun _ => observeCell_of_memRead,
    observeCell_outside s.mem, observeCell_outside s.mem, observeCell_outside s.mem⟩

/-- The three lines of a code carry its number (rules R20, R71). -/
theorem faultBits_toNat (code : FaultCode) : (faultBits code).toNat = codeNumber code := by
  cases code <;> rfl

/-- `running` is 1 exactly while RUNNING (rules R17, R71). -/
theorem runningLine_eq_ite (r : RunState) : runningLine r = if r = .running then 1 else 0 := by
  cases r <;> rfl

/-- Settles O43: the lines of each port. -/
theorem portLinesCarryTheState : Obligations.PortLinesCarryTheState := by
  unfold Obligations.PortLinesCarryTheState
  refine ⟨fun c s => ⟨runningLine_eq_ite s.run, faultBits_toNat s.fault, rfl, loadError_iff⟩, fun _ => rfl, rfl, ?_⟩
  exact fun code info => ⟨rfl, faultBits_toNat code, rfl⟩

end Sys2Proof.Machine
end

section
/-!
PROOFS. Rules about the whole machine: what changes the run state, memory and the registers (rules R10, R12, R18), how the
pc moves and runs end (rules R82, R149, R150).
-/
namespace Sys2Proof.Machine

/-- Settles O40: each effect of an edge that changes the run state is a row of the table. -/
theorem runStateTransitionsAreComplete : Obligations.RunStateTransitionsAreComplete := by
  unfold Obligations.RunStateTransitionsAreComplete
  intro c s t hstep hchange
  cases edgeEffect_of_stepWith hstep with
  | reset hrst => exact .inl hrst
  | host _ hrun =>
    rcases State.startPort_cases (s.sampled.loadPort s.pins) s.pins with ⟨hstart, hclear, -⟩ | ⟨-, hsame⟩
    · exact .inr (.inl ⟨hrun, hstart, by simpa using hclear⟩)
    · rw [hsame, State.loadPort_run] at hchange
      exact absurd rfl hchange
  | stop _ hrun hhas hreq => exact .inr (.inr (.inr (.inr ⟨hrun, hhas, hreq⟩)))
  | cycle _ _ hrun heffect =>
    cases heffect with
    | raise _ => exact .inr (.inr (.inr (.inl ⟨hrun, rfl, conditionCode_ne_noFault _⟩)))
    | halt hop => exact .inr (.inr (.inl ⟨hrun, hop⟩))
    | skip _ _ _ => exact absurd rfl hchange
    | print _ => exact absurd rfl hchange
    | multiply _ => exact absurd rfl hchange
    | load _ _ _ _ => exact absurd rfl hchange

/-- Settles O47: the cycle and the stop request keep memory, the load port writes one address. -/
theorem memoryChangesOnlyByHost : Obligations.MemoryChangesOnlyByHost := by
  unfold Obligations.MemoryChangesOnlyByHost
  intro c s t a hstep hchange
  cases edgeEffect_of_stepWith hstep with
  | reset hrst => exact .inl hrst
  | host _ hrun =>
    rw [State.startPort_mem] at hchange
    rcases State.loadPort_cases s.sampled s.pins with ⟨hwe, -, hport⟩ | ⟨-, hport⟩
    · refine .inr ⟨hrun, hwe, ?_⟩
      by_contra hne
      rw [hport] at hchange
      exact hchange (memRead_set_of_ne s.mem s.pins.ldData (Ne.symm hne))
    · rw [hport] at hchange
      exact absurd rfl hchange
  | stop _ _ _ _ => exact absurd rfl hchange
  | cycle _ _ _ heffect =>
    rw [heffect.mem_eq] at hchange
    exact absurd rfl hchange

/-- Settles O48: two effects of the cycle write a register, each the one it names. -/
theorem registersChangeOnlyByTwoInstructions : Obligations.RegistersChangeOnlyByTwoInstructions := by
  unfold Obligations.RegistersChangeOnlyByTwoInstructions
  intro c s t j hstep hchange
  cases edgeEffect_of_stepWith hstep with
  | reset hrst => exact .inl hrst
  | host _ _ => simp at hchange
  | stop _ _ _ _ => exact absurd rfl hchange
  | cycle hruns _ _ heffect =>
    cases heffect with
    | multiply hop =>
      refine .inr (.inl ⟨hruns, hop, ?_⟩)
      by_contra hne
      exact hchange (State.writeReg_getElem_of_ne s.sampled hne _)
    | @load r v i hop hreg _ hi =>
      refine .inr (.inr ⟨hruns, hop, ?_⟩)
      by_cases hj : j = i
      · rw [hj, hi, BitVec.ofNat_toNat, BitVec.setWidth_eq]
        exact hreg
      · exact absurd (State.writeReg_getElem_of_ne s.sampled hj _) hchange
    | raise _ => exact absurd rfl hchange
    | skip _ _ _ => exact absurd rfl hchange
    | halt _ => exact absurd rfl hchange
    | print _ => exact absurd rfl hchange

/-- The least number of bytes a cycle moves the pc that does not halt the engine (rule R150): the shortest instruction
that runs on, or a skipped byte. -/
def leastAdvance : UnknownOpcodePolicy → Nat
  | .halt => 2
  | .skip => 1

section
variable {c : Config} {s t : State}

/-- A cycle halts the engine where it stands, or runs on from an address in memory with the pc moved by one of its lengths
(rules R82, R150). -/
theorem CycleEffect.halts_or_advances (h : CycleEffect c s t) :
    (t.run = .halted ∧ t.pc = s.pc) ∨
      (t.run = s.run ∧ s.pc.toNat < 256 ∧ s.pc.toNat + leastAdvance c.policy ≤ t.pc.toNat ∧
        t.pc.toNat ≤ s.pc.toNat + 3) := by
  have hmoved {opcode : Byte} (hop : memRead s.mem s.pc.toNat = some opcode) (len : Nat)
      (hleast : leastAdvance c.policy ≤ len) (hmost : len ≤ 3) (hpc : t.pc = (s.advance len).pc) :
      s.pc.toNat < 256 ∧ s.pc.toNat + leastAdvance c.policy ≤ t.pc.toNat ∧ t.pc.toNat ≤ s.pc.toNat + 3 := by
    have hlt := (memRead_eq_some hop).1
    rw [hpc, State.advance_pc_toNat hlt (by omega)]
    omega
  have hleast : leastAdvance c.policy ≤ 2 := by cases c.policy <;> decide
  cases h with
  | raise _ => exact .inl ⟨rfl, rfl⟩
  | halt _ => exact .inl ⟨rfl, rfl⟩
  | skip hop _ hpolicy => exact .inr ⟨rfl, hmoved hop 1 (by rw [hpolicy]; decide) (by decide) rfl⟩
  | print hop => exact .inr ⟨rfl, hmoved hop 2 hleast (by decide) rfl⟩
  | multiply hop => exact .inr ⟨rfl, hmoved hop 3 (by omega) (by decide) rfl⟩
  | load hop _ _ _ => exact .inr ⟨rfl, hmoved hop 3 (by omega) (by decide) rfl⟩

/-- An edge that runs `Step()` halts the engine, or leaves it RUNNING with the pc moved on (rule R150). -/
theorem State.runsCycle_halts_or_advances (hruns : s.runsCycle c = true) :
    ∃ t, stepWith c s = .next t ∧ t.inputs = s.inputs.tail ∧
      (t.run = .halted ∨
        t.run = .running ∧ s.pc.toNat < 256 ∧ s.pc.toNat + leastAdvance c.policy ≤ t.pc.toNat) := by
  obtain ⟨-, hrun, -⟩ := State.runsCycle_iff.mp hruns
  obtain ⟨t, hstep, heffect⟩ := State.runsCycle_effect hruns
  refine ⟨t, hstep, heffect.inputs_eq, ?_⟩
  rcases heffect.halts_or_advances with ⟨hhalted, -⟩ | ⟨hsame, hpc, hmoved, -⟩
  · exact .inl hhalted
  · exact .inr ⟨hsame.trans hrun, hpc, hmoved⟩

/-- The pc moves on by at least one byte where the engine runs on. -/
theorem leastAdvance_pos (policy : UnknownOpcodePolicy) : 0 < leastAdvance policy := by
  cases policy <;> decide

/-- Settles O49: the host's moves keep the pc, a cycle halts where it stands or advances. -/
theorem pcNeverDecreases : Obligations.PcNeverDecreases := by
  unfold Obligations.PcNeverDecreases
  intro c s t hrst hstep
  cases edgeEffect_of_stepWith hstep with
  | reset hreset => cases hrst.symm.trans hreset
  | host _ hrun =>
    rw [State.startPort_pc, State.loadPort_pc, State.sampled_pc]
    exact ⟨le_rfl, by omega, fun hrunning => by cases hrun.symm.trans hrunning⟩
  | stop _ _ _ _ => exact ⟨le_rfl, Nat.le_add_right _ _, fun _ hrunning => by cases hrunning⟩
  | cycle _ _ _ heffect =>
    have hpos := leastAdvance_pos c.policy
    rcases heffect.halts_or_advances with ⟨hhalted, hpc⟩ | ⟨-, -, hleast, hmost⟩
    · rw [hpc, State.sampled_pc]
      exact ⟨le_rfl, by omega, fun _ hrunning => by cases hhalted.symm.trans hrunning⟩
    · rw [State.sampled_pc] at hleast hmost
      exact ⟨by omega, hmost, fun _ _ => by omega⟩

/-- Settles O50: the least advance under each policy. -/
theorem eachCycleHaltsOrAdvances : Obligations.EachCycleHaltsOrAdvances := by
  unfold Obligations.EachCycleHaltsOrAdvances
  intro c s hruns
  obtain ⟨t, hstep, -, hcases⟩ := State.runsCycle_halts_or_advances hruns
  refine ⟨t, hstep, ?_⟩
  cases hpolicy : c.policy <;> rwa [hpolicy] at hcases

/-- Settles O51: of the effects that halt, HALT is the normal end, a raised condition the faulted one. -/
theorem runEndsInOneOfThreeWays : Obligations.RunEndsInOneOfThreeWays := by
  unfold Obligations.RunEndsInOneOfThreeWays
  intro c s t hinv hrst hrun hstep hhalted
  have hclear := hinv.fault_of_running hrun
  have hrunning {u : State} (hu : u.run = s.run) (h : u.run = .halted) : False := by
    cases (hu.trans hrun).symm.trans h
  cases edgeEffect_of_stepWith hstep with
  | reset hreset => cases hrst.symm.trans hreset
  | host _ hrun' => cases hrun.symm.trans hrun'
  | stop _ _ hhas hreq => exact .inr (.inr ⟨hhas, hreq, hclear, rfl, rfl⟩)
  | cycle _ _ _ heffect =>
    cases heffect with
    | raise _ => exact .inr (.inl ⟨⟨rfl, conditionCode_ne_noFault _, List.getLast?_concat⟩, rfl⟩)
    | halt hop => exact .inl ⟨⟨rfl, hclear, hop, List.getLast?_concat⟩, rfl⟩
    | skip _ _ _ => exact (hrunning rfl hhalted).elim
    | print _ => exact (hrunning rfl hhalted).elim
    | multiply _ => exact (hrunning rfl hhalted).elim
    | load _ _ _ _ => exact (hrunning rfl hhalted).elim

/-- A RUNNING engine that the host leaves alone runs `Step()`. -/
theorem State.runsCycle_of_no_inputs (c : Config) (hrun : s.run = .running) (hinputs : s.inputs = []) :
    s.runsCycle c = true := by
  have hpins : s.pins = Inputs.idle := by rw [State.pins, hinputs]; rfl
  exact State.runsCycle_iff.mpr ⟨by rw [hpins]; rfl, hrun, by simp [hpins, Inputs.idle]⟩

/-- With no further host input the engine halts once `n` least advances would leave memory and one more edge has fetched
outside it, by induction on `n`. -/
theorem run_ends (c : Config) (n : Nat) {s : State} (hrun : s.run = .running) (hinputs : s.inputs = [])
    (hpc : 256 ≤ s.pc.toNat + leastAdvance c.policy * n) :
    ∃ m t, m ≤ n + 1 ∧ runWith c m s = .next t ∧ t.run = .halted := by
  induction n generalizing s with
  | zero =>
    obtain ⟨t, hstep, -, hhalted | ⟨-, hlt, -⟩⟩ :=
      State.runsCycle_halts_or_advances (State.runsCycle_of_no_inputs c hrun hinputs)
    · exact ⟨1, t, le_rfl, runWith_succ hstep 0, hhalted⟩
    · omega
  | succ n ih =>
    obtain ⟨t, hstep, hrest, hhalted | ⟨hrunning, -, hmoved⟩⟩ :=
      State.runsCycle_halts_or_advances (State.runsCycle_of_no_inputs c hrun hinputs)
    · exact ⟨1, t, by omega, runWith_succ hstep 0, hhalted⟩
    · rw [Nat.mul_succ] at hpc
      obtain ⟨m, u, hm, hruns, hhalted⟩ := ih hrunning (by rw [hrest, hinputs]; rfl) (by omega)
      exact ⟨m + 1, u, by omega, (runWith_succ hstep m).trans hruns, hhalted⟩

end

/-- Settles O52: 128 moves of two bytes, or 256 of one, leave memory. -/
theorem everyRunEnds : Obligations.EveryRunEnds := by
  unfold Obligations.EveryRunEnds
  intro c s hrun hpc hinputs
  cases hpolicy : c.policy with
  | halt => exact run_ends c 128 hrun hinputs (by simp [hpc, hpolicy, leastAdvance])
  | skip => exact run_ends c 256 hrun hinputs (by simp [hpc, hpolicy, leastAdvance])

end Sys2Proof.Machine
end

section
/-!
PROOFS. The boot sequence (rules R47, R142, R151): the bytes the load port has placed, run edge by edge.
-/
namespace Sys2Proof.Machine

/-- Storing bytes leaves the addresses below and behind them as they were. -/
theorem Memory.read_setBytes_outside {bytes : List Byte} {m : Memory} {a k : Nat}
    (h : k < a ∨ a + bytes.length ≤ k) : Memory.read (Memory.setBytes m a bytes) k = Memory.read m k := by
  induction bytes generalizing m a with
  | nil => rfl
  | cons b rest ih =>
    rw [List.length_cons] at h
    rw [Memory.setBytes, ih (by omega), Memory.read_set_of_ne m b (by omega)]

/-- The bytes stored from an address upward are read back in their order. -/
theorem Memory.read_setBytes_inside {bytes : List Byte} {m : Memory} {a k : Nat} (hk : k < bytes.length) :
    Memory.read (Memory.setBytes m a bytes) (a + k) = bytes[k] := by
  induction bytes generalizing m a k with
  | nil => cases hk
  | cons b rest ih =>
    cases k with
    | zero => rw [Memory.setBytes, Memory.read_setBytes_outside (by omega), Nat.add_zero, Memory.read_set_self]; rfl
    | succ k =>
      rw [Memory.setBytes, (by omega : a + (k + 1) = a + 1 + k)]
      exact ih (Nat.lt_of_succ_lt_succ hk)

section
variable {c : Config} {s t : State} {rest : List Inputs}

/-- A run of `m` edges goes on for `n` more. -/
theorem runWith_add {m : Nat} (h : runWith c m s = .next t) (n : Nat) : runWith c (m + n) s = runWith c n t := by
  induction m generalizing s with
  | zero => cases h; rw [Nat.zero_add]
  | succ m ih =>
    obtain ⟨u, hstep, -⟩ := stepWith_effect c s
    rw [runWith_succ hstep] at h
    rw [Nat.succ_add, runWith_succ hstep, ih h]

/-- One load write in range, while HALTED (rule R44). -/
theorem stepWith_load {a : Nat} {b : Byte} (hrun : s.run = .halted) (hinputs : s.inputs = loadInput a b :: rest)
    (ha : a < 256) : stepWith c s = .next { s with mem := Memory.set s.mem a b, inputs := rest } := by
  have haddr : (BitVec.ofNat 9 a).toNat = a := by rw [BitVec.toNat_ofNat]; omega
  rw [stepWith_of_inputs hinputs]
  simp [clockEdge, loadInput, Inputs.idle, hrun, State.loadPort, State.startPort, memWrite, haddr, ha]

/-- The load writes of a list of bytes place it, while HALTED (rule R142), by induction on the list. -/
theorem runWith_loadInputs {bytes : List Byte} {a : Nat} (hrun : s.run = .halted)
    (hinputs : s.inputs = loadInputs a bytes ++ rest) (ha : a + bytes.length ≤ 256) :
    runWith c bytes.length s = .next { s with mem := Memory.setBytes s.mem a bytes, inputs := rest } := by
  induction bytes generalizing s a with
  | nil => rw [← (show s.inputs = rest from hinputs)]; rfl
  | cons b bytes ih =>
    rw [List.length_cons] at ha
    rw [List.length_cons, runWith_succ (stepWith_load hrun hinputs (by omega))]
    exact ih hrun rfl (by omega)

/-- There is one load write for each byte. -/
theorem length_loadInputs (a : Nat) (bytes : List Byte) : (loadInputs a bytes).length = bytes.length := by
  induction bytes generalizing a with
  | nil => rfl
  | cons b bytes ih => rw [loadInputs, List.length_cons, List.length_cons, ih]

/-- The boot sequence of a program that fits in memory leaves it there from address 0, all else as after reset but RUNNING
(rules R47, R142). -/
theorem runWith_boot {program : List Byte} (hfits : program.length ≤ 256)
    (hinputs : s.inputs = resetInput :: (loadInputs 0 program ++ startInput :: rest)) :
    runWith c (program.length + 2) s =
      .next { State.reset with mem := Memory.setBytes [] 0 program, run := .running, inputs := rest } := by
  have hrst : s.pins.rst = true := by rw [State.pins, hinputs]; rfl
  have hreset : stepWith c s = .next { State.reset with inputs := loadInputs 0 program ++ startInput :: rest } := by
    rw [stepWith_reset hrst, State.resetEdge, State.sampled_inputs, hinputs, List.tail_cons]
  have hload := runWith_loadInputs (c := c) (s := { State.reset with inputs := loadInputs 0 program ++ startInput :: rest })
    rfl rfl (by omega : 0 + program.length ≤ 256)
  rw [runWith_succ hreset, runWith_add hload 1, runWith_succ (stepWith_start c rfl rfl rfl) 0]
  rfl

end

/-- Settles O54: the program by position, the cells behind it as after reset. -/
theorem bootReachesLaunchState : Obligations.BootReachesLaunchState := by
  unfold Obligations.BootReachesLaunchState
  refine ⟨fun program hlong => if_neg (Nat.not_le.mpr hlong), fun c s program ins rest hboot hinputs => ?_⟩
  obtain ⟨hfits, rfl⟩ : program.length ≤ 256 ∧ resetInput :: (loadInputs 0 program ++ [startInput]) = ins := by
    simpa [bootInputs] using hboot
  rw [List.cons_append, List.append_assoc] at hinputs
  have hlength : (resetInput :: (loadInputs 0 program ++ [startInput])).length = program.length + 2 := by
    simp [length_loadInputs]
  refine ⟨_, hlength ▸ runWith_boot hfits hinputs, fun a ha => ?_, fun a hge hlt => ?_, rfl⟩
  · have hread := Memory.read_setBytes_inside (m := []) (a := 0) ha
    rw [Nat.zero_add] at hread
    rw [memRead_inside _ (by omega), hread, List.getElem?_eq_getElem ha]
  · rw [memRead_inside _ hlt, Memory.read_setBytes_outside (by omega)]
    rfl

end Sys2Proof.Machine
end

section
/-!
PROOFS. The loader's text (30_encoding.md section 7, rules R62 and R64): the content of a line of digits, and the value of
eight digits.
-/
namespace Sys2Proof.Machine

/-- The digit that writes bit `k` of a byte (rule R62). -/
def bitDigit (b : Byte) (k : Nat) : Char := if b.getLsbD k then '1' else '0'

/-- The eight digits of a byte, most significant bit first (rule R62). -/
def byteDigits (b : Byte) : List Char := [7, 6, 5, 4, 3, 2, 1, 0].map (bitDigit b)

/-- Every character of a byte's digits is one of the two. -/
theorem mem_byteDigits {b : Byte} {ch : Char} (h : ch ∈ byteDigits b) : ch = '0' ∨ ch = '1' := by
  obtain ⟨k, -, rfl⟩ := List.mem_map.mp h
  unfold bitDigit
  split_ifs
  · exact .inr rfl
  · exact .inl rfl

/-- A digit behind others doubles their value and adds its own (rule R62). -/
theorem binaryValue_append (digits : List Char) (ch : Char) :
    binaryValue (digits ++ [ch]) = 2 * binaryValue digits + (if ch == '1' then 1 else 0) := by
  rw [binaryValue, List.foldl_append]
  rfl

/-- Where digits have the value of the bits above bit `k`, with the digit of bit `k` behind them they have the value of the
bits from bit `k` on. -/
theorem binaryValue_append_bitDigit {b : Byte} {k : Nat} {digits : List Char}
    (h : binaryValue digits = b.toNat / 2 ^ (k + 1)) :
    binaryValue (digits ++ [bitDigit b k]) = b.toNat / 2 ^ k := by
  have hdiv : b.toNat / 2 ^ (k + 1) = b.toNat / 2 ^ k / 2 := by rw [Nat.pow_succ, Nat.div_div_eq_div_mul]
  have hbit : (if bitDigit b k == '1' then 1 else 0) = b.toNat / 2 ^ k % 2 := by
    rw [bitDigit, BitVec.getLsbD, Nat.testBit_eq_decide_div_mod_eq]
    rcases Nat.mod_two_eq_zero_or_one (b.toNat / 2 ^ k) with h0 | h1
    · simp [h0]
    · simp [h1]
  rw [binaryValue_append, h, hbit, hdiv]
  omega

/-- The digits of a byte have its value, bit by bit from the most significant one. -/
theorem binaryValue_byteDigits (b : Byte) : binaryValue (byteDigits b) = b.toNat := by
  have h8 : binaryValue [] = b.toNat / 2 ^ 8 := (Nat.div_eq_of_lt b.isLt).symm
  have h4 := binaryValue_append_bitDigit <| binaryValue_append_bitDigit <| binaryValue_append_bitDigit <|
    binaryValue_append_bitDigit h8
  have h0 := binaryValue_append_bitDigit <| binaryValue_append_bitDigit <| binaryValue_append_bitDigit <|
    binaryValue_append_bitDigit h4
  exact h0.trans (Nat.div_one _)

/-- Blanks in front of a character that is none are dropped up to it. -/
theorem dropWhile_isBlank_append {blanks chars : List Char} (hblanks : ∀ ch ∈ blanks, isBlank ch = true)
    (hchars : ∀ ch ∈ chars, isBlank ch = false) : (blanks ++ chars).dropWhile isBlank = chars := by
  rw [List.dropWhile_append_of_pos hblanks]
  cases chars with
  | nil => rfl
  | cons ch rest => exact List.dropWhile_cons_of_neg (by simp [hchars ch List.mem_cons_self])

/-- The content of a line whose text before the comment is digits and then blanks is the digits (rule R62). -/
theorem lineContent_of_takeWhile {line digits blanks : List Char} (hline : line.takeWhile (· != '#') = digits ++ blanks)
    (hdigits : ∀ ch ∈ digits, isBlank ch = false) (hne : digits ≠ []) (hblanks : ∀ ch ∈ blanks, isBlank ch = true) :
    lineContent line = digits := by
  obtain ⟨ch, rest, rfl⟩ := List.exists_cons_of_ne_nil hne
  have hfront : ((ch :: rest) ++ blanks).dropWhile isBlank = (ch :: rest) ++ blanks :=
    List.dropWhile_cons_of_neg (by simp [hdigits ch List.mem_cons_self])
  rw [lineContent, hline, hfront, List.reverse_append,
    dropWhile_isBlank_append (fun b hb => hblanks b (List.mem_reverse.mp hb))
      (fun d hd => hdigits d (List.mem_reverse.mp hd)), List.reverse_reverse]

/-- A line whose content is the digits of a byte gives that byte (rule R62). -/
theorem loaderLine_of_lineContent {line : List Char} {b : Byte} (h : lineContent line = byteDigits b) :
    loaderLine line = some b := by
  have hall : (byteDigits b).all isBinaryDigit = true := by
    refine List.all_eq_true.mpr fun ch hch => ?_
    rcases mem_byteDigits hch with rfl | rfl <;> rfl
  have hlength : (byteDigits b).length = 8 := rfl
  have hnonempty : (byteDigits b).isEmpty = false := rfl
  simp [loaderLine, h, hall, hlength, hnonempty, binaryValue_byteDigits]

/-- The digits of a byte, alone or with a blank and a comment behind them, are that byte. -/
theorem loaderLine_byteDigits (b : Byte) (comment : List Char) :
    loaderLine (byteDigits b) = some b ∧ loaderLine (byteDigits b ++ ' ' :: '#' :: comment) = some b := by
  have hblank (ch : Char) (h : ch ∈ byteDigits b) : isBlank ch = false := by
    rcases mem_byteDigits h with rfl | rfl <;> rfl
  have hhash (ch : Char) (h : ch ∈ byteDigits b) : (ch != '#') = true := by
    rcases mem_byteDigits h with rfl | rfl <;> rfl
  have hne : byteDigits b ≠ [] := by simp [byteDigits]
  constructor
  · refine loaderLine_of_lineContent (lineContent_of_takeWhile (blanks := []) ?_ hblank hne (by simp))
    rw [List.append_nil]
    exact List.takeWhile_eq_self_iff.mpr hhash
  · refine loaderLine_of_lineContent (lineContent_of_takeWhile (blanks := [' ']) ?_ hblank hne (by simp [isBlank]))
    rw [List.takeWhile_append_of_pos hhash]
    rfl

/-- Settles O57: the digits of any byte, and the worked example evaluated line by line. -/
theorem eightDigitLineIsItsByte : Obligations.EightDigitLineIsItsByte := by
  unfold Obligations.EightDigitLineIsItsByte
  exact ⟨loaderLine_byteDigits, rfl⟩

end Sys2Proof.Machine
end
